-- ==== Sys2Proof/Word.lean ====
section
/-! DEFINITION. The machine's words and register numbers (R5, R7, R8): every value is unsigned. -/

namespace Sys2Proof

/-- An 8-bit value: a general register, a timer, a memory cell (R5 `XLEN`, `TLEN`; R27). -/
abbrev Byte := BitVec 8

/-- A 16-bit value: `I`, `pc`, a stack entry, an opcode word (R5 `ILEN`, `PCLEN`; R25; R70). -/
abbrev Word := BitVec 16

/-- A 12-bit immediate address `nnn` (R71). -/
abbrev Addr12 := BitVec 12

/-- The number of a general register, V0 to VF (R21): all 16 values name a register (R74). -/
abbrev Reg := Fin 16

/-- VF, "the 16th general register", `V[15]` (R11, R22). -/
abbrev vf : Reg := 15

/-- A key code, 0x0 to 0xF (R29). -/
abbrev Key := Fin 16

end Sys2Proof
end

