-- ==== Sys2Proof/Syntax.lean ====
section
/-! DEFINITION. The 34 instructions of the opcode map (R76), one constructor per row of
spec/opcode_table.json, in the table's order. -/

namespace Sys2Proof

/-- One instruction with its operand fields (R71, R72). `x` and `y` are register numbers, `kk` an immediate
byte, `nnn` an immediate address, `n` a count of sprite rows. `shrVx` and `shlVx` keep the field `y` that
their words carry and their effect ignores (R78), so that no bit of a word is dropped. -/
inductive Instr where
  /-- `00E0` CLS, R171. -/
  | cls
  /-- `00EE` RET, R100. -/
  | ret
  /-- `1nnn` JP nnn, R101. -/
  | jpNnn (nnn : Addr12)
  /-- `2nnn` CALL nnn, R102. -/
  | callNnn (nnn : Addr12)
  /-- `3xkk` SE Vx, kk, R103. -/
  | seVxKk (x : Reg) (kk : Byte)
  /-- `4xkk` SNE Vx, kk, R104. -/
  | sneVxKk (x : Reg) (kk : Byte)
  /-- `5xy0` SE Vx, Vy, R105. -/
  | seVxVy (x y : Reg)
  /-- `9xy0` SNE Vx, Vy, R106. -/
  | sneVxVy (x y : Reg)
  /-- `6xkk` LD Vx, kk, R120. -/
  | ldVxKk (x : Reg) (kk : Byte)
  /-- `7xkk` ADD Vx, kk, R121. -/
  | addVxKk (x : Reg) (kk : Byte)
  /-- `8xy0` LD Vx, Vy, R122. -/
  | ldVxVy (x y : Reg)
  /-- `8xy1` OR Vx, Vy, R123. -/
  | orVxVy (x y : Reg)
  /-- `8xy2` AND Vx, Vy, R124. -/
  | andVxVy (x y : Reg)
  /-- `8xy3` XOR Vx, Vy, R125. -/
  | xorVxVy (x y : Reg)
  /-- `8xy4` ADD Vx, Vy, R127. -/
  | addVxVy (x y : Reg)
  /-- `8xy5` SUB Vx, Vy, R128. -/
  | subVxVy (x y : Reg)
  /-- `8xy6` SHR Vx, R129. -/
  | shrVx (x y : Reg)
  /-- `8xy7` SUBN Vx, Vy, R130. -/
  | subnVxVy (x y : Reg)
  /-- `8xyE` SHL Vx, R131. -/
  | shlVx (x y : Reg)
  /-- `Annn` LD I, nnn, R150. -/
  | ldINnn (nnn : Addr12)
  /-- `Bnnn` JP V0, nnn, R107. -/
  | jpV0Nnn (nnn : Addr12)
  /-- `Cxkk` RND Vx, kk, R133. -/
  | rndVxKk (x : Reg) (kk : Byte)
  /-- `Dxyn` DRW Vx, Vy, n, R172. -/
  | drwVxVyN (x y : Reg) (n : Fin 16)
  /-- `Ex9E` SKP Vx, R185. -/
  | skpVx (x : Reg)
  /-- `ExA1` SKNP Vx, R186. -/
  | sknpVx (x : Reg)
  /-- `Fx07` LD Vx, DT, R187. -/
  | ldVxDt (x : Reg)
  /-- `Fx0A` LD Vx, K, R188. -/
  | ldVxK (x : Reg)
  /-- `Fx15` LD DT, Vx, R189. -/
  | ldDtVx (x : Reg)
  /-- `Fx18` LD ST, Vx, R190. -/
  | ldStVx (x : Reg)
  /-- `Fx1E` ADD I, Vx, R151. -/
  | addIVx (x : Reg)
  /-- `Fx29` LD F, Vx, R152. -/
  | ldFVx (x : Reg)
  /-- `Fx33` LD B, Vx, R153. -/
  | ldBVx (x : Reg)
  /-- `Fx55` LD [I], Vx, R154. -/
  | ldMemVx (x : Reg)
  /-- `Fx65` LD Vx, [I], R155. -/
  | ldVxMem (x : Reg)
  deriving DecidableEq, Repr

end Sys2Proof
end

