-- ==== Sys2Proof/Decode.lean ====
section
/-! DEFINITION. The decoder, total on any bytes and rejecting by name, and the encoder, both written from
the field layout of R71 and the opcode map of R76 and R77. -/

namespace Sys2Proof

/-! ### Byte order and fields -/

/-- Two bytes as an opcode word, high byte first (R55, R70). -/
def wordOfBytes (hi lo : Byte) : Word := BitVec.ofNat 16 (hi.toNat * 0x100 + lo.toNat)

/-- The byte of a word that lies at the lower address (R55). -/
def highByte (w : Word) : Byte := BitVec.ofNat 8 (w.toNat / 0x100)

/-- The byte of a word that lies at the higher address (R55). -/
def lowByte (w : Word) : Byte := BitVec.ofNat 8 w.toNat

/-- `op[15:12]`, the family (R71). -/
def fieldT (op : Word) : Nat := op.toNat / 0x1000

/-- `op[11:8]`, the number of Vx (R71). -/
def fieldX (op : Word) : Reg := Fin.ofNat 16 (op.toNat / 0x100)

/-- `op[7:4]`, the number of Vy (R71). -/
def fieldY (op : Word) : Reg := Fin.ofNat 16 (op.toNat / 0x10)

/-- `op[3:0]` (R71). -/
def fieldN (op : Word) : Fin 16 := Fin.ofNat 16 op.toNat

/-- `op[7:0]`, the immediate byte (R71). -/
def fieldKk (op : Word) : Byte := BitVec.ofNat 8 op.toNat

/-- `op[11:0]`, the immediate address (R71). -/
def fieldNnn (op : Word) : Addr12 := BitVec.ofNat 12 op.toNat

/-! ### Decoding -/

/-- Family 0x0: the whole word selects (R77). -/
def decodeFamily0 (op : Word) : Option Instr :=
  if op = 0x00E0 then some .cls
  else if op = 0x00EE then some .ret
  else none

/-- Family 0x8: the low nibble selects (R77). -/
def decodeFamily8 (x y : Reg) (n : Nat) : Option Instr :=
  match n with
  | 0x0 => some (.ldVxVy x y)
  | 0x1 => some (.orVxVy x y)
  | 0x2 => some (.andVxVy x y)
  | 0x3 => some (.xorVxVy x y)
  | 0x4 => some (.addVxVy x y)
  | 0x5 => some (.subVxVy x y)
  | 0x6 => some (.shrVx x y)
  | 0x7 => some (.subnVxVy x y)
  | 0xE => some (.shlVx x y)
  | _ => none

/-- Family 0xE: the low byte selects (R77). -/
def decodeFamilyE (x : Reg) (kk : Nat) : Option Instr :=
  match kk with
  | 0x9E => some (.skpVx x)
  | 0xA1 => some (.sknpVx x)
  | _ => none

/-- Family 0xF: the low byte selects (R77). -/
def decodeFamilyF (x : Reg) (kk : Nat) : Option Instr :=
  match kk with
  | 0x07 => some (.ldVxDt x)
  | 0x0A => some (.ldVxK x)
  | 0x15 => some (.ldDtVx x)
  | 0x18 => some (.ldStVx x)
  | 0x1E => some (.addIVx x)
  | 0x29 => some (.ldFVx x)
  | 0x33 => some (.ldBVx x)
  | 0x55 => some (.ldMemVx x)
  | 0x65 => some (.ldVxMem x)
  | _ => none

/-- Decode one opcode word (R75 to R78): an instruction, or `none` for an `IllegalOpcode` word. Families 0x5
and 0x9 are matched strictly, low nibble 0 (R78). -/
def decodeWord (op : Word) : Option Instr :=
  match fieldT op with
  | 0x0 => decodeFamily0 op
  | 0x1 => some (.jpNnn (fieldNnn op))
  | 0x2 => some (.callNnn (fieldNnn op))
  | 0x3 => some (.seVxKk (fieldX op) (fieldKk op))
  | 0x4 => some (.sneVxKk (fieldX op) (fieldKk op))
  | 0x5 => if fieldN op = 0 then some (.seVxVy (fieldX op) (fieldY op)) else none
  | 0x6 => some (.ldVxKk (fieldX op) (fieldKk op))
  | 0x7 => some (.addVxKk (fieldX op) (fieldKk op))
  | 0x8 => decodeFamily8 (fieldX op) (fieldY op) (fieldN op).val
  | 0x9 => if fieldN op = 0 then some (.sneVxVy (fieldX op) (fieldY op)) else none
  | 0xA => some (.ldINnn (fieldNnn op))
  | 0xB => some (.jpV0Nnn (fieldNnn op))
  | 0xC => some (.rndVxKk (fieldX op) (fieldKk op))
  | 0xD => some (.drwVxVyN (fieldX op) (fieldY op) (fieldN op))
  | 0xE => decodeFamilyE (fieldX op) (fieldKk op).toNat
  | _ => decodeFamilyF (fieldX op) (fieldKk op).toNat

/-- What decoding a sequence of bytes gives: an instruction and the bytes after it, or a named rejection. -/
inductive Decoded where
  /-- An instruction, and the bytes that follow it. -/
  | instr (i : Instr) (rest : List Byte)
  /-- The first word matches no row of the opcode map (R75, R201). -/
  | illegalOpcode (op : Word)
  /-- Fewer than the two bytes that every instruction has (R70). -/
  | truncated
  deriving DecidableEq, Repr

/-- Decode the instruction at the front of a byte sequence (R70, R75). -/
def decodeBytes : List Byte → Decoded
  | hi :: lo :: rest =>
    match decodeWord (wordOfBytes hi lo) with
    | some i => .instr i rest
    | none => .illegalOpcode (wordOfBytes hi lo)
  | _ => .truncated

/-! ### Encoding -/

/-- Format `A`: `t n n n` (R73). -/
def encodeA (t : Nat) (nnn : Addr12) : Word := BitVec.ofNat 16 (t * 0x1000 + nnn.toNat)

/-- Formats `XK` and `X`: `t x k k` (R73). -/
def encodeXK (t : Nat) (x : Reg) (kk : Byte) : Word :=
  BitVec.ofNat 16 (t * 0x1000 + x.val * 0x100 + kk.toNat)

/-- Formats `XY` and `XYN`: `t x y n` (R73). -/
def encodeXYN (t : Nat) (x y : Reg) (n : Fin 16) : Word :=
  BitVec.ofNat 16 (t * 0x1000 + x.val * 0x100 + y.val * 0x10 + n.val)

/-- The opcode word of an instruction (R76). -/
def encode : Instr → Word
  | .cls => 0x00E0
  | .ret => 0x00EE
  | .jpNnn nnn => encodeA 0x1 nnn
  | .callNnn nnn => encodeA 0x2 nnn
  | .seVxKk x kk => encodeXK 0x3 x kk
  | .sneVxKk x kk => encodeXK 0x4 x kk
  | .seVxVy x y => encodeXYN 0x5 x y 0x0
  | .sneVxVy x y => encodeXYN 0x9 x y 0x0
  | .ldVxKk x kk => encodeXK 0x6 x kk
  | .addVxKk x kk => encodeXK 0x7 x kk
  | .ldVxVy x y => encodeXYN 0x8 x y 0x0
  | .orVxVy x y => encodeXYN 0x8 x y 0x1
  | .andVxVy x y => encodeXYN 0x8 x y 0x2
  | .xorVxVy x y => encodeXYN 0x8 x y 0x3
  | .addVxVy x y => encodeXYN 0x8 x y 0x4
  | .subVxVy x y => encodeXYN 0x8 x y 0x5
  | .shrVx x y => encodeXYN 0x8 x y 0x6
  | .subnVxVy x y => encodeXYN 0x8 x y 0x7
  | .shlVx x y => encodeXYN 0x8 x y 0xE
  | .ldINnn nnn => encodeA 0xA nnn
  | .jpV0Nnn nnn => encodeA 0xB nnn
  | .rndVxKk x kk => encodeXK 0xC x kk
  | .drwVxVyN x y n => encodeXYN 0xD x y n
  | .skpVx x => encodeXK 0xE x 0x9E
  | .sknpVx x => encodeXK 0xE x 0xA1
  | .ldVxDt x => encodeXK 0xF x 0x07
  | .ldVxK x => encodeXK 0xF x 0x0A
  | .ldDtVx x => encodeXK 0xF x 0x15
  | .ldStVx x => encodeXK 0xF x 0x18
  | .addIVx x => encodeXK 0xF x 0x1E
  | .ldFVx x => encodeXK 0xF x 0x29
  | .ldBVx x => encodeXK 0xF x 0x33
  | .ldMemVx x => encodeXK 0xF x 0x55
  | .ldVxMem x => encodeXK 0xF x 0x65

/-- The two bytes of an instruction in address order (R55, R70). -/
def encodeBytes (i : Instr) : List Byte := [highByte (encode i), lowByte (encode i)]

/-! ### Words as spec/opcode_table.json numbers them -/

/-- The opcode word whose low `nbits` bits are those of `w`: every instruction is one word (R70). -/
def tableWord (nbits w : Nat) : Word := BitVec.ofNat 16 (w % 2 ^ nbits)

/-- The instruction the decoder reads from the bytes of a table word, laid out big-endian (R55). -/
def decodeTableWord (nbits w : Nat) : Option Instr :=
  match decodeBytes [highByte (tableWord nbits w), lowByte (tableWord nbits w)] with
  | .instr i _ => some i
  | .illegalOpcode _ => none
  | .truncated => none

end Sys2Proof
end

