-- ==== Sys2Proof/Config.lean ====
section
/-! DEFINITION. What is fixed for the machine: the parameters of R5 with their values, the open
parameters of R6, and the free value of `RND`. -/

namespace Sys2Proof.Config

/-- `MEM_SIZE`: 4096 bytes, addresses 0x000 to 0xFFF (R5, R50). -/
@[simp] abbrev memSize : Nat := 0x1000

/-- `FONT_BASE` (R5, R60). -/
@[simp] abbrev fontBase : Nat := 0x050

/-- `GLYPH_BYTES`: a font glyph is five bytes long (R5). -/
@[simp] abbrev glyphBytes : Nat := 5

/-- The font table: 16 glyphs of 5 bytes (R5). -/
@[simp] abbrev fontBytes : Nat := 80

/-- `PROG_BASE`: where a program is loaded and starts (R5, R60, R235). -/
@[simp] abbrev progBase : Nat := 0x200

/-- Every instruction is two bytes long (R5, R70). -/
@[simp] abbrev instrBytes : Nat := 2

/-- What an address that memory does not list reads as.
DESIGN CHOICE (log 1): the spec leaves it open (`INIT`, R34); unsafe. -/
@[simp] abbrev unlistedByte : Byte := 0

/-- `RND` (R6, R133, D15): the byte of the `n`th draw, a FREE VALUE. It has no body, so a proof about it
holds for every stream of draws (log 2). -/
opaque rnd : Nat → Byte

/-- `VF_ALIAS_POLICY` (R6, R132, D10): what the five flag-writing ALU instructions do when VF is also an
operand. The spec fixes no single value and names `refuse` as the default (log 3). -/
inductive VfAliasPolicy where
  /-- Fault `UnspecifiedAlias`. -/
  | refuse
  /-- `V[x] <- res; V[15] <- flag`, in that order. -/
  | flagLast
  /-- `V[15] <- flag; V[x] <- res`, in that order. -/
  | resultLast
  /-- `V[15] <- flag`, then the result is computed from the updated registers. -/
  | sequential
  deriving DecidableEq, Repr

/-- One possible `FONT` (R6, R234): the conventional CHIP-8 font.
UNVERIFIED (log 4): the spec marks the bytes as general knowledge; no rule depends on them. -/
def conventionalFont : Vector Byte 80 :=
  #v[0xF0, 0x90, 0x90, 0x90, 0xF0,  0x20, 0x60, 0x20, 0x20, 0x70,
     0xF0, 0x10, 0xF0, 0x80, 0xF0,  0xF0, 0x10, 0xF0, 0x10, 0xF0,
     0x90, 0x90, 0xF0, 0x10, 0x10,  0xF0, 0x80, 0xF0, 0x10, 0xF0,
     0xF0, 0x80, 0xF0, 0x90, 0xF0,  0xF0, 0x10, 0x20, 0x40, 0x40,
     0xF0, 0x90, 0xF0, 0x90, 0xF0,  0xF0, 0x90, 0xF0, 0x10, 0xF0,
     0xF0, 0x90, 0xF0, 0x90, 0x90,  0xE0, 0x90, 0xE0, 0x90, 0xE0,
     0xF0, 0x80, 0x80, 0x80, 0xF0,  0xE0, 0x90, 0x90, 0x90, 0xE0,
     0xF0, 0x80, 0xF0, 0x80, 0xF0,  0xF0, 0x80, 0xF0, 0x80, 0x80]

end Sys2Proof.Config
end

