-- ==== Sys2Proof/Machine/State.lean ====
section
/-! DEFINITION. The state of the machine, whole (R20), as plain data; the reasons a step or a load can
stop (R200, R212); the state after reset (R34, R230). -/

namespace Sys2Proof.Machine

/-- `MEM` (R27, R50) as (address, byte) pairs in one canonical form: addresses strictly rising, no entry
equal to what an unlisted address reads as. The form is `Memory.wf`. -/
abbrev Memory := List Host.Cell

/-- The register file `V[0..15]` (R21). -/
abbrev RegFile := Vector Byte 16

/-- `FB` (R28, R170): 32 rows of 64 one-bit pixels. Pixel (`px`, `py`), which is `FB[py*64 + px]`, is bit
`px` of row `py` (log 20). -/
abbrev Framebuffer := Vector (BitVec 64) 32

/-- A framebuffer with every pixel dark. -/
def Framebuffer.clear : Framebuffer := Vector.replicate 32 0

/-- The run-time error conditions of a step, complete (R200). Each leaves the state as it was before the
step (R207) and is reported to whoever issued the step (R208). -/
inductive Fault where
  /-- Code 1, raised by decode: the fetched word matches no row (R201). The document's own fault; safe where
  the source decodes more loosely (log 12). -/
  | illegalOpcode (pc0 : Word) (op : Word)
  /-- Code 2, raised by RET when `SP = 0` (R202). The document's own fault; safe. -/
  | stackUnderflow (pc0 : Word)
  /-- Code 3, raised by CALL when `SP = 16` (R203). The document's recommended fault; safe (log 19). -/
  | stackOverflow (pc0 : Word)
  /-- Code 4, raised by the fetch, DRW, LD B, LD [I], LD Vx,[I] when an address above 0xFFF would be accessed
  (R204); `addr` is the first invalid one. The spec's own fault; safe (log 13). -/
  | addressOutOfRange (pc0 : Word) (addr : Nat)
  /-- Code 5, raised by SKP and SKNP when `Vx > 0xF` (R205). The spec's own fault; safe (log 14). -/
  | keyIndexOutOfRange (pc0 : Word) (k : Byte)
  /-- Code 6, raised by ADD Vx,Vy, SUB, SHR, SUBN, SHL when VF is an operand and the policy is `refuse`
  (R206). The spec's own fault; safe (log 3). -/
  | unspecifiedAlias (pc0 : Word) (op : Word)
  deriving DecidableEq, Repr

/-- The code of a fault (R200). -/
def Fault.code : Fault → Nat
  | .illegalOpcode _ _ => 1
  | .stackUnderflow _ => 2
  | .stackOverflow _ => 3
  | .addressOutOfRange _ _ => 4
  | .keyIndexOutOfRange _ _ => 5
  | .unspecifiedAlias _ _ => 6

/-- The errors of `load_program` (R212); they are not step faults. -/
inductive LoadError where
  /-- Code 16: the bytes do not fit from 0x200 up; nothing is loaded (R212, R235). Safe. -/
  | capacityExceeded
  /-- Code 17: the ROM source had no bytes; it comes from outside the core (R212, log 23). Safe. -/
  | sourceNotFound
  deriving DecidableEq, Repr

/-- The code of a load error (R212). -/
def LoadError.code : LoadError → Nat
  | .capacityExceeded => 16
  | .sourceNotFound => 17

/-- The reasons the model itself declines to run an instruction. -/
inductive Refusal where
  /-- The instruction has no meaning in the model yet; raised by exec's refused arms, of which there are none.
  Safe. -/
  | notModelled (mnemonic : String)
  deriving DecidableEq, Repr

/-- The architectural state (R20), and two fields of the model's own that stand last. -/
structure State where
  /-- `V[0..15]` (R21, R22). -/
  v : RegFile
  /-- `I` (R23). -/
  regI : Word
  /-- `pc` (R24). -/
  pc : Word
  /-- `STACK[0..15]` (R25). -/
  stack : Vector Word 16
  /-- `SP`, the number of entries in use, 0 to 16 (R25). -/
  sp : Fin 17
  /-- `DT` (R26). -/
  dt : Byte
  /-- `ST` (R26). -/
  st : Byte
  /-- `MEM` (R27). -/
  mem : Memory
  /-- `FB` (R28). -/
  fb : Framebuffer
  /-- `KEYS[0..15]`: true when the key is held down (R29). -/
  keys : Vector Bool 16
  /-- The MODEL's own field: how many `RND` draws have been consumed (R133, log 2). -/
  draws : Nat
  /-- The MODEL's own field: the parameter `VF_ALIAS_POLICY` (R6, R132, log 3). Nothing writes it. -/
  aliasPolicy : Config.VfAliasPolicy
  deriving DecidableEq, Repr

/-- What one step, or one instruction, answers. -/
abbrev Result := Host.Outcome State Fault Refusal

/-- The parameter `INIT` (R6, D16): what the state that `reset` does not fix holds afterwards. -/
structure Init where
  /-- `V[0..15]`. -/
  v : RegFile
  /-- `I`. -/
  regI : Word
  /-- `pc`. -/
  pc : Word
  /-- The unobservable stack entries. -/
  stack : Vector Word 16
  /-- `DT`. -/
  dt : Byte
  /-- `ST`. -/
  st : Byte
  /-- The contents of `MEM` from address 0 up; a cell past the end of the list is unlisted. -/
  image : List Byte
  deriving DecidableEq, Repr

/-- The machine right after reset. `FB` is clear and the stack is empty (R34, R230). Everything else is
unspecified by the spec and has a DESIGN CHOICE value: memory with nothing listed (log 1), registers and
timers 0 (log 5), pc 0x200 (log 6), no key down (log 7). The alias policy is the default R6 names (log 3). -/
def State.reset : State where
  v := Vector.replicate 16 0
  regI := 0
  pc := 0x200
  stack := Vector.replicate 16 0
  sp := 0
  dt := 0
  st := 0
  mem := []
  fb := Framebuffer.clear
  keys := Vector.replicate 16 false
  draws := 0
  aliasPolicy := .refuse

end Sys2Proof.Machine
end

