-- ==== Sys2Proof/Machine/Ops.lean ====
section
/-! DEFINITION. The named operations over memory, registers, program counter, stack, framebuffer and keys,
and taking a fault, each once. -/

namespace Sys2Proof.Machine

/-! ### Memory (R50 to R54, R59) -/

/-- The byte at an address. -/
def Memory.read : Memory → Nat → Byte
  | [], _ => Config.unlistedByte
  | (k, b) :: m, a => if k = a then b else Memory.read m a

/-- The entry a byte needs at an address: none when it is what an unlisted address reads as. -/
def Memory.entry (a : Nat) (b : Byte) : Memory := if b = Config.unlistedByte then [] else [(a, b)]

/-- Store one byte, keeping the canonical form. -/
def Memory.write : Memory → Nat → Byte → Memory
  | [], a, b => Memory.entry a b
  | (k, c) :: m, a, b =>
    if a < k then Memory.entry a b ++ (k, c) :: m
    else if a = k then Memory.entry a b ++ m
    else (k, c) :: Memory.write m a b

/-- The canonical form, for entries at `lo` or above. -/
def Memory.wfFrom (lo : Nat) : Memory → Bool
  | [] => true
  | (k, b) :: m => decide (lo ≤ k) && decide (b ≠ Config.unlistedByte) && Memory.wfFrom (k + 1) m

/-- The canonical form: addresses strictly rising, no entry equal to what an unlisted address reads as. -/
def Memory.wf (m : Memory) : Bool := Memory.wfFrom 0 m

/-- Every listed address is an address of `MEM`, 0x000 to 0xFFF (R50). -/
def Memory.bounded (m : Memory) : Bool := m.all fun c => decide (c.1 < Config.memSize)

/-- `n` bytes from address `a` up. -/
def Memory.readBytes (m : Memory) (a : Nat) : Nat → List Byte
  | 0 => []
  | n + 1 => m.read a :: Memory.readBytes m (a + 1) n

/-- Store a sequence of bytes from address `a` up. -/
def Memory.writeBytes (m : Memory) (a : Nat) : List Byte → Memory
  | [] => m
  | b :: bs => Memory.writeBytes (m.write a b) (a + 1) bs

/-- The range check of an access to `n` bytes from `base` up (R51 to R54): the first address it would touch
that `MEM` does not have, if there is one. An access to no byte touches no address. -/
def firstInvalid? (base n : Nat) : Option Nat :=
  if n = 0 ∨ base + n ≤ Config.memSize then none else some (max base Config.memSize)

/-- The state's byte at an address. -/
def State.readByte (s : State) (a : Nat) : Byte := s.mem.read a

/-- `n` bytes of the state's memory from address `a` up. -/
def State.readBytes (s : State) (a n : Nat) : List Byte := s.mem.readBytes a n

/-- Store a sequence of bytes from address `a` up. -/
def State.storeBytes (s : State) (a : Nat) (bs : List Byte) : State :=
  { s with mem := s.mem.writeBytes a bs }

/-! ### Registers (R21, R23, R26) -/

/-- `V[x]`. -/
def State.getV (s : State) (x : Reg) : Byte := s.v[x.val]

/-- `V[x] <- b`. No register is hard-wired (R21). -/
def State.setV (s : State) (x : Reg) (b : Byte) : State := { s with v := s.v.set x.val b }

/-- Write consecutive registers of a register file from number `k` up. -/
def setRegsFrom (v : RegFile) (k : Nat) : List Byte → RegFile
  | [] => v
  | b :: bs => setRegsFrom (v.setIfInBounds k b) (k + 1) bs

/-- Write V0, V1, … in turn. -/
def State.setBlock (s : State) (bs : List Byte) : State := { s with v := setRegsFrom s.v 0 bs }

/-- `I <- w`. -/
def State.setI (s : State) (w : Word) : State := { s with regI := w }

/-- `DT <- b`. -/
def State.setDt (s : State) (b : Byte) : State := { s with dt := b }

/-- `ST <- b`. -/
def State.setSt (s : State) (b : Byte) : State := { s with st := b }

/-- The byte of the next `RND` draw (R133). -/
def State.nextDraw (s : State) : Byte := Config.rnd s.draws

/-- Consume one `RND` draw (R133). -/
def State.consumeDraw (s : State) : State := { s with draws := s.draws + 1 }

/-! ### Program counter (R24, R92) -/

/-- `pc <- w`. -/
def State.setPc (s : State) (w : Word) : State := { s with pc := w }

/-- The advance that every step makes before it executes (R92); `mod 65536` by the width. -/
def State.advancePc (s : State) : State := s.setPc (s.pc + 2)

/-- Back to the address the executing instruction was fetched from (R188). -/
def State.rewindPc (s : State) : State := s.setPc (s.pc - 2)

/-- `pc0` as an executing instruction knows it: `pc` is `pc0 + 2` by then (R9, R24). -/
def State.pc0 (s : State) : Word := s.pc - 2

/-- A skip adds a further 2 when its condition holds (R24, R103). -/
def State.skipIf (s : State) (c : Bool) : State := if c then s.setPc (s.pc + 2) else s

/-! ### Call stack (R25) -/

/-- Push a return address; `none` when 16 entries are in use. -/
def State.push? (s : State) (ret : Word) : Option State :=
  if h : s.sp.val < 16 then
    some { s with stack := s.stack.set s.sp.val ret, sp := ⟨s.sp.val + 1, by omega⟩ }
  else none

/-- Pop the newest entry; `none` when the stack is empty. The entry itself stays in `STACK` (R32). -/
def State.pop? (s : State) : Option (Word × State) :=
  if h : 0 < s.sp.val then
    some (s.stack[s.sp.val - 1], { s with sp := ⟨s.sp.val - 1, by omega⟩ })
  else none

/-! ### Framebuffer (R28, R170, R173) -/

/-- Is pixel (`px`, `py`) lit? -/
def Framebuffer.pixel (fb : Framebuffer) (px : Fin 64) (py : Fin 32) : Bool := fb[py.val].getLsbD px.val

/-- `FB[j]` for `j = py*64 + px` (R28). -/
def Framebuffer.at (fb : Framebuffer) (j : Fin 2048) : Bool :=
  fb.pixel (Fin.ofNat 64 j.val) (Fin.ofNat 32 (j.val / 64))

/-- XOR one pixel with 1. -/
def Framebuffer.toggle (fb : Framebuffer) (px : Fin 64) (py : Fin 32) : Framebuffer :=
  fb.set py.val (fb[py.val] ^^^ BitVec.twoPow 64 px.val)

/-- One sprite bit over one pixel: a 1 toggles the pixel, and it is a collision if the pixel was lit (R173). -/
def drawPixel (bit : Bool) (px : Fin 64) (py : Fin 32) (acc : Framebuffer × Bool) : Framebuffer × Bool :=
  if bit then (acc.1.toggle px py, acc.2 || acc.1.pixel px py) else acc

/-- The sprite bit of column offset `c`: bit 7 is the leftmost (R173, D11; log 16). -/
def spriteBit (row : Byte) (c : Nat) : Bool := row.getLsbD (7 - c)

/-- One sprite row: columns `ox + 0` to `ox + 7`, each reduced `mod 64` on its own (R173). -/
def drawRow (row : Byte) (ox : Nat) (py : Fin 32) (acc : Framebuffer × Bool) : Framebuffer × Bool :=
  (List.range 8).foldl (fun acc c => drawPixel (spriteBit row c) (Fin.ofNat 64 (ox + c)) py acc) acc

/-- The sprite rows from row offset `r` on, each at `(oy + r) mod 32` (R173). -/
def drawRowsFrom (r ox oy : Nat) : List Byte → Framebuffer × Bool → Framebuffer × Bool
  | [], acc => acc
  | row :: rows, acc => drawRowsFrom (r + 1) ox oy rows (drawRow row ox (Fin.ofNat 32 (oy + r)) acc)

/-- `drawSprite(rows, originX, originY) -> collided` (R173): the new framebuffer and the collision flag. -/
def drawSprite (rows : List Byte) (ox oy : Nat) (fb : Framebuffer) : Framebuffer × Bool :=
  drawRowsFrom 0 ox oy rows (fb, false)

/-- `FB <- fb`. -/
def State.setFb (s : State) (fb : Framebuffer) : State := { s with fb := fb }

/-! ### Input latch (R29) -/

/-- `KEYS[k]`. -/
def State.keyDown (s : State) (k : Key) : Bool := s.keys[k.val]

/-! ### Faults and fetch -/

/-- TAKING A FAULT during execution (R207, R208): the fault, with the address of the faulting instruction, is
handed to whoever issued the step. Nothing is saved, no mode changes, control goes nowhere and no write of the
step lands; the state after the step is the state before it (`stateAfter`). -/
def raise (s : State) (mk : Word → Fault) : Result := .fault (mk s.pc0)

/-- The state after a step that began in `s` (R207, R209): a fault leaves the pre-step state whole, and no
return from a fault exists, so a further step runs the same instruction again. -/
def stateAfter (s : State) : Result → State
  | .next t => t
  | .fault _ => s
  | .refused _ => s

/-- The fetch (R52, R91): two bytes at `pc`, big-endian, or `AddressOutOfRange` with the first invalid
address. It runs before the advance, so `pc0` is `pc` itself. -/
def fetch (s : State) : Except Fault Word :=
  match firstInvalid? s.pc.toNat Config.instrBytes with
  | some a => .error (.addressOutOfRange s.pc a)
  | none => .ok (wordOfBytes (s.readByte s.pc.toNat) (s.readByte (s.pc.toNat + 1)))

/-- Place an opcode word where the next fetch reads it. A `pc` that no fetch can use is set to the entry point
0x200 first, as `load_program` would (R235, log 9). -/
def State.placeWord (s : State) (w : Word) : State :=
  let t := if s.pc.toNat + Config.instrBytes ≤ Config.memSize then s else s.setPc 0x200
  t.storeBytes t.pc.toNat [highByte w, lowByte w]

end Sys2Proof.Machine
end

