-- ==== Sys2Proof/Machine/Flags.lean ====
section
/-! DEFINITION. The results and flags of the ALU (R121, R127 to R131, R134), and how a flag-writing ALU
instruction writes its result and VF, the alias cases of R132 among it. -/

namespace Sys2Proof.Machine

/-- A flag as VF holds it: 0 or 1 and nothing else (R22). -/
def flagByte (f : Bool) : Byte := if f then 1 else 0

/-- `(a + b) mod 256` (R127). -/
def addRes (a b : Byte) : Byte := a + b

/-- Carry out of bit 7: the sum exceeds 255 (R127). -/
def addFlag (a b : Byte) : Bool := decide (a.toNat + b.toNat > 255)

/-- `(a - b) mod 256` (R128). -/
def subRes (a b : Byte) : Byte := a - b

/-- Minuend greater than subtrahend, strictly, unsigned (R128, D28). -/
def subFlag (a b : Byte) : Bool := decide (a.toNat > b.toNat)

/-- `(b - a) mod 256` (R130). -/
def subnRes (a b : Byte) : Byte := b - a

/-- `Vy > Vx`, strictly, unsigned (R130). -/
def subnFlag (a b : Byte) : Bool := decide (b.toNat > a.toNat)

/-- `a >> 1`, logical (R129). -/
def shrRes (a : Byte) : Byte := a >>> 1

/-- Bit 0 before the shift (R129). -/
def shrFlag (a : Byte) : Bool := a.getLsbD 0

/-- `(a << 1) mod 256` (R131). -/
def shlRes (a : Byte) : Byte := a <<< 1

/-- Bit 7 before the shift, as 0 or 1 (R131, D5). -/
def shlFlag (a : Byte) : Bool := a.getLsbD 7

/-- Is VF the destination of a one-operand ALU instruction (R132)? -/
def aliasesX (x : Reg) : Bool := x == vf

/-- Is VF an operand of a two-operand ALU instruction (R132)? -/
def aliasesXY (x y : Reg) : Bool := x == vf || y == vf

/-- `V[x] <- res; V[15] <- flag`, in that order (R126, and `flag_last` of R132). -/
def State.writeFlagLast (s : State) (x : Reg) (res : Byte) (flag : Bool) : State :=
  (s.setV x res).setV vf (flagByte flag)

/-- `V[15] <- flag; V[x] <- res`, in that order (`result_last` of R132). -/
def State.writeResultLast (s : State) (x : Reg) (res : Byte) (flag : Bool) : State :=
  (s.setV vf (flagByte flag)).setV x res

/-- `V[15] <- flag`, then the result from the re-read registers (`sequential` of R132). -/
def State.writeSequential (s : State) (x y : Reg) (f : Byte → Byte → Byte) (flag : Bool) : State :=
  let t := s.setV vf (flagByte flag)
  t.setV x (f (t.getV x) (t.getV y))

/-- The writes of a flag-writing ALU instruction `i` (R126, R132): `f` is its result as a function of its
operands, `flag` its flag, `isAlias` whether VF is an operand. Outside the alias cases every policy gives the
plain writes of R126. -/
def writeAlu (i : Instr) (isAlias : Bool) (x y : Reg) (f : Byte → Byte → Byte) (flag : Bool) (s : State) :
    Result :=
  if isAlias then
    match s.aliasPolicy with
    | .refuse => raise s fun pc0 => .unspecifiedAlias pc0 (encode i)
    | .flagLast => .next (s.writeFlagLast x (f (s.getV x) (s.getV y)) flag)
    | .resultLast => .next (s.writeResultLast x (f (s.getV x) (s.getV y)) flag)
    | .sequential => .next (s.writeSequential x y f flag)
  else .next (s.writeFlagLast x (f (s.getV x) (s.getV y)) flag)

end Sys2Proof.Machine
end

