-- ==== Sys2Proof/Machine/Alu.lean ====
section
/-! DEFINITION. The meanings of the register, arithmetic and logic instructions and RND (42_alu.md). All
operands are read before any write (R95). -/

namespace Sys2Proof.Machine

/-- LD Vx, kk (R120). -/
def execLdVxKk (x : Reg) (kk : Byte) (s : State) : Result := .next (s.setV x kk)

/-- ADD Vx, kk (R121): the carry is lost. -/
def execAddVxKk (x : Reg) (kk : Byte) (s : State) : Result := .next (s.setV x (addRes (s.getV x) kk))

/-- LD Vx, Vy (R122). -/
def execLdVxVy (x y : Reg) (s : State) : Result := .next (s.setV x (s.getV y))

/-- OR Vx, Vy (R123). -/
def execOrVxVy (x y : Reg) (s : State) : Result := .next (s.setV x (s.getV x ||| s.getV y))

/-- AND Vx, Vy (R124). -/
def execAndVxVy (x y : Reg) (s : State) : Result := .next (s.setV x (s.getV x &&& s.getV y))

/-- XOR Vx, Vy (R125). -/
def execXorVxVy (x y : Reg) (s : State) : Result := .next (s.setV x (s.getV x ^^^ s.getV y))

/-- ADD Vx, Vy (R127). -/
def execAddVxVy (x y : Reg) (s : State) : Result :=
  writeAlu (.addVxVy x y) (aliasesXY x y) x y addRes (addFlag (s.getV x) (s.getV y)) s

/-- SUB Vx, Vy (R128). -/
def execSubVxVy (x y : Reg) (s : State) : Result :=
  writeAlu (.subVxVy x y) (aliasesXY x y) x y subRes (subFlag (s.getV x) (s.getV y)) s

/-- SHR Vx (R129): `y` is part of the word and no operand. -/
def execShrVx (x y : Reg) (s : State) : Result :=
  writeAlu (.shrVx x y) (aliasesX x) x x (fun a _ => shrRes a) (shrFlag (s.getV x)) s

/-- SUBN Vx, Vy (R130). -/
def execSubnVxVy (x y : Reg) (s : State) : Result :=
  writeAlu (.subnVxVy x y) (aliasesXY x y) x y subnRes (subnFlag (s.getV x) (s.getV y)) s

/-- SHL Vx (R131): `y` is part of the word and no operand. -/
def execShlVx (x y : Reg) (s : State) : Result :=
  writeAlu (.shlVx x y) (aliasesX x) x x (fun a _ => shlRes a) (shlFlag (s.getV x)) s

/-- RND Vx, kk (R133): one draw is consumed. -/
def execRndVxKk (x : Reg) (kk : Byte) (s : State) : Result :=
  .next ((s.setV x (s.nextDraw &&& kk)).consumeDraw)

end Sys2Proof.Machine
end

