-- ==== Sys2Proof/Machine/Operands.lean ====
section
/-! DEFINITION. Every operand form of the machine: the immediates (R74), the one addressing mode for data
`I + k` (R54), the font address, the decimal digits, the register block, the sprite rows, the key codes. -/

namespace Sys2Proof.Machine

/-- `zext_16(nnn)` (R74). -/
def addrWord (nnn : Addr12) : Word := nnn.setWidth 16

/-- `zext_16(V[x])` (R8). -/
def byteWord (b : Byte) : Word := b.setWidth 16

/-- The address of the data byte at offset 0 from `I`, a natural number that is never wrapped (R54). -/
def State.dataAddr (s : State) : Nat := s.regI.toNat

/-- The address of a digit's glyph: font base + 5 × the whole byte, no mask (R152, D14). -/
def fontAddr (d : Byte) : Word := BitVec.ofNat 16 (Config.fontBase + Config.glyphBytes * d.toNat)

/-- Hundreds, tens and ones of a byte, in the order they are stored (R55, R153). -/
def bcdDigits (v : Byte) : List Byte :=
  [BitVec.ofNat 8 (v.toNat / 100), BitVec.ofNat 8 (v.toNat / 10 % 10), BitVec.ofNat 8 (v.toNat % 10)]

/-- V0 to Vx inclusive, in the order they are stored (R154). -/
def State.block (s : State) (x : Reg) : List Byte := s.v.toList.take (x.val + 1)

/-- The number of registers V0 to Vx (R57). -/
def blockSize (x : Reg) : Nat := x.val + 1

/-- The `n` rows of the sprite at `I`, row 0 first (R172). -/
def State.spriteRows (s : State) (n : Fin 16) : List Byte := s.readBytes s.dataAddr n.val

/-- A register value as a key code, if it is one (R185). -/
def keyIndex? (k : Byte) : Option Key := if h : k.toNat < 16 then some ⟨k.toNat, h⟩ else none

/-- The smallest key code that is down, if one is (R188). -/
def State.lowestKey? (s : State) : Option Key := (List.finRange 16).find? s.keyDown

/-- A key code as a register value. -/
def keyByte (k : Key) : Byte := BitVec.ofNat 8 k.val

end Sys2Proof.Machine
end

