-- ==== Sys2Proof/Machine/ControlFlow.lean ====
section
/-! DEFINITION. The meanings of RET, JP, CALL, the four register skips and JP V0 (41_control_flow.md). On
entry `pc` is already `pc0 + 2` (R10, R90). -/

namespace Sys2Proof.Machine

/-- RET (R100). -/
def execRet (s : State) : Result :=
  match s.pop? with
  | none => raise s .stackUnderflow
  | some (ret, t) => .next (t.setPc ret)

/-- JP nnn (R101). -/
def execJpNnn (nnn : Addr12) (s : State) : Result := .next (s.setPc (addrWord nnn))

/-- CALL nnn (R102): the address pushed is that of the next instruction. -/
def execCallNnn (nnn : Addr12) (s : State) : Result :=
  match s.push? s.pc with
  | none => raise s .stackOverflow
  | some t => .next (t.setPc (addrWord nnn))

/-- SE Vx, kk (R103). -/
def execSeVxKk (x : Reg) (kk : Byte) (s : State) : Result := .next (s.skipIf (s.getV x == kk))

/-- SNE Vx, kk (R104). -/
def execSneVxKk (x : Reg) (kk : Byte) (s : State) : Result := .next (s.skipIf (s.getV x != kk))

/-- SE Vx, Vy (R105). -/
def execSeVxVy (x y : Reg) (s : State) : Result := .next (s.skipIf (s.getV x == s.getV y))

/-- SNE Vx, Vy (R106). -/
def execSneVxVy (x y : Reg) (s : State) : Result := .next (s.skipIf (s.getV x != s.getV y))

/-- JP V0, nnn (R107): the sum is not reduced to 12 bits. -/
def execJpV0Nnn (nnn : Addr12) (s : State) : Result :=
  .next (s.setPc (addrWord nnn + byteWord (s.getV 0)))

end Sys2Proof.Machine
end

