-- ==== Sys2Proof/Machine/Display.lean ====
section
/-! DEFINITION. The meanings of CLS and DRW (44_display.md). -/

namespace Sys2Proof.Machine

/-- CLS (R171): VF is not written. -/
def execCls (s : State) : Result := .next (s.setFb Framebuffer.clear)

/-- DRW Vx, Vy, n (R172): the coordinates are the registers' values before VF is written. -/
def execDrwVxVyN (x y : Reg) (n : Fin 16) (s : State) : Result :=
  match firstInvalid? s.dataAddr n.val with
  | some a => raise s fun pc0 => .addressOutOfRange pc0 a
  | none =>
    let drawn := drawSprite (s.spriteRows n) (s.getV x).toNat (s.getV y).toNat s.fb
    .next ((s.setFb drawn.1).setV vf (flagByte drawn.2))

end Sys2Proof.Machine
end

