-- ==== Sys2Proof/Machine/IndexMemory.lean ====
section
/-! DEFINITION. The meanings of the index register and memory instructions (43_index_memory.md). The range of
an access is checked whole before the first write (R53, R207); `I` is never modified by an access (R23). -/

namespace Sys2Proof.Machine

/-- LD I, nnn (R150). -/
def execLdINnn (nnn : Addr12) (s : State) : Result := .next (s.setI (addrWord nnn))

/-- ADD I, Vx (R151): 16 bits wide, VF untouched. -/
def execAddIVx (x : Reg) (s : State) : Result := .next (s.setI (s.regI + byteWord (s.getV x)))

/-- LD F, Vx (R152). -/
def execLdFVx (x : Reg) (s : State) : Result := .next (s.setI (fontAddr (s.getV x)))

/-- LD B, Vx (R153). -/
def execLdBVx (x : Reg) (s : State) : Result :=
  match firstInvalid? s.dataAddr 3 with
  | some a => raise s fun pc0 => .addressOutOfRange pc0 a
  | none => .next (s.storeBytes s.dataAddr (bcdDigits (s.getV x)))

/-- LD [I], Vx (R154). -/
def execLdMemVx (x : Reg) (s : State) : Result :=
  match firstInvalid? s.dataAddr (blockSize x) with
  | some a => raise s fun pc0 => .addressOutOfRange pc0 a
  | none => .next (s.storeBytes s.dataAddr (s.block x))

/-- LD Vx, [I] (R155). -/
def execLdVxMem (x : Reg) (s : State) : Result :=
  match firstInvalid? s.dataAddr (blockSize x) with
  | some a => raise s fun pc0 => .addressOutOfRange pc0 a
  | none => .next (s.setBlock (s.readBytes s.dataAddr (blockSize x)))

end Sys2Proof.Machine
end

