-- ==== Sys2Proof/Machine/KeysTimers.lean ====
section
/-! DEFINITION. The meanings of the key and timer instructions (45_keys_timers.md). -/

namespace Sys2Proof.Machine

/-- SKP Vx (R185). -/
def execSkpVx (x : Reg) (s : State) : Result :=
  match keyIndex? (s.getV x) with
  | none => raise s fun pc0 => .keyIndexOutOfRange pc0 (s.getV x)
  | some k => .next (s.skipIf (s.keyDown k))

/-- SKNP Vx (R186). -/
def execSknpVx (x : Reg) (s : State) : Result :=
  match keyIndex? (s.getV x) with
  | none => raise s fun pc0 => .keyIndexOutOfRange pc0 (s.getV x)
  | some k => .next (s.skipIf (!s.keyDown k))

/-- LD Vx, DT (R187). -/
def execLdVxDt (x : Reg) (s : State) : Result := .next (s.setV x s.dt)

/-- LD Vx, K (R188): with no key down the step goes back to itself and changes nothing; with some down, the
smallest code is taken. -/
def execLdVxK (x : Reg) (s : State) : Result :=
  match s.lowestKey? with
  | none => .next s.rewindPc
  | some k => .next (s.setV x (keyByte k))

/-- LD DT, Vx (R189). -/
def execLdDtVx (x : Reg) (s : State) : Result := .next (s.setDt (s.getV x))

/-- LD ST, Vx (R190): no signal is emitted. -/
def execLdStVx (x : Reg) (s : State) : Result := .next (s.setSt (s.getV x))

end Sys2Proof.Machine
end

