-- ==== Sys2Proof/Machine/Step.lean ====
section
/-! DEFINITION. The `step` event: one fetch-decode-execute cycle (R90). -/

namespace Sys2Proof.Machine

/-- One step (R90): fetch at `pc`, advance `pc` by 2, decode, execute. -/
def step (s : State) : Host.Outcome State Fault Refusal :=
  match fetch s with
  | .error f => .fault f
  | .ok op =>
    match decodeWord op with
    | none => .fault (.illegalOpcode s.pc op)
    | some i => exec i s.advancePc

/-- `s` with the instruction of a table word where the next fetch reads it (log 9). -/
def State.withFetchWord (s : State) (nbits w : Nat) : State := s.placeWord (tableWord nbits w)

end Sys2Proof.Machine
end

