-- ==== Sys2Proof/Machine/Events.lean ====
section
/-! DEFINITION. The other events that drive the core (R12): the timer tick, key writes, framebuffer reads,
reset and the loads; and a run over any schedule of events (D21, log 8). -/

namespace Sys2Proof.Machine

/-- One timer's decrement, floored at 0 (R191). -/
def countDown (t : Byte) : Byte := if t = 0 then 0 else t - 1

/-- The `tick` event (R191): both timers count down; the Bool is the `sound_stop` pulse, emitted exactly on the
transition of ST from 1 to 0 (R192). -/
def tick (s : State) : State × Bool :=
  ({ s with dt := countDown s.dt, st := countDown s.st }, s.st == 1)

/-- The `key_write(k, b)` event (R29). -/
def keyWrite (k : Key) (b : Bool) (s : State) : State := { s with keys := s.keys.set k.val b }

/-- The `reset` event (R230): FB clear, stack empty, KEYS untouched, the rest from `INIT`. The model's own
fields are untouched (log 24). -/
def resetEvent (init : Init) (s : State) : State where
  v := init.v
  regI := init.regI
  pc := init.pc
  stack := init.stack
  sp := 0
  dt := init.dt
  st := init.st
  mem := Memory.writeBytes [] 0 (init.image.take Config.memSize)
  fb := Framebuffer.clear
  keys := s.keys
  draws := s.draws
  aliasPolicy := s.aliasPolicy

/-- The `load_font` event (R233): the table `FONT` is an argument (R6, D17). -/
def loadFont (font : Vector Byte 80) (s : State) : State := s.storeBytes Config.fontBase font.toList

/-- The `load_program(bytes)` event (R235): all or nothing, and `pc` is set to 0x200 on success. -/
def loadProgram (bytes : List Byte) (s : State) : Except LoadError State :=
  if bytes.length + Config.progBase > Config.memSize then .error .capacityExceeded
  else .ok ((s.storeBytes Config.progBase bytes).setPc 0x200)

/-- A load from a ROM source outside the core, which may have no bytes to give (R212, log 23). -/
def loadFromSource (source : Option (List Byte)) (s : State) : Except LoadError State :=
  match source with
  | none => .error .sourceNotFound
  | some bytes => loadProgram bytes s

/-- The boot sequence `reset; load_font; load_program(bytes)` (R236). -/
def boot (init : Init) (font : Vector Byte 80) (bytes : List Byte) (s : State) : Except LoadError State :=
  loadProgram bytes (loadFont font (resetEvent init s))

/-- The events, each issued from outside and atomic (R12, R58). -/
inductive Event where
  /-- Issued by the scheduler: one instruction. -/
  | step
  /-- Issued by the scheduler: one count of the timers. -/
  | tick
  /-- Issued by the key mapper. -/
  | keyWrite (k : Key) (b : Bool)
  /-- Issued by the presentation collaborator. -/
  | fbRead
  /-- Issued by the host before a run. -/
  | reset (init : Init)
  /-- Issued by the host before a run. -/
  | loadFont (font : Vector Byte 80)
  /-- Issued by the host before a run; `none` when the ROM source had no bytes. -/
  | loadProgram (source : Option (List Byte))
  deriving DecidableEq, Repr

/-- What an event puts out (R12). -/
inductive Output where
  /-- Nothing. -/
  | quiet
  /-- The fault report of a step (R208). -/
  | faultReport (f : Fault)
  /-- The model's own refusal of a step; never produced, since no arm of exec refuses. -/
  | refusal (r : Refusal)
  /-- The `sound_stop` pulse of a tick (R192). -/
  | soundStop
  /-- The pixels of an `fb_read` (R175). -/
  | pixels (fb : Framebuffer)
  /-- The error of a load (R212). -/
  | loadFailed (e : LoadError)
  deriving DecidableEq, Repr

/-- The report of a step (R208). -/
def reportOf : Result → Output
  | .next _ => .quiet
  | .fault f => .faultReport f
  | .refused r => .refusal r

/-- The state and output after a load: a failed load changes nothing (R212, R235). -/
def afterLoad (s : State) : Except LoadError State → State × Output
  | .ok t => (t, .quiet)
  | .error e => (s, .loadFailed e)

/-- One event (R12). A step that faults leaves the pre-step state (R207); whether to go on is the
scheduler's decision (R209). -/
def applyEvent (e : Event) (s : State) : State × Output :=
  match e with
  | .step => (stateAfter s (Machine.step s), reportOf (Machine.step s))
  | .tick => ((Machine.tick s).1, if (Machine.tick s).2 then .soundStop else .quiet)
  | .keyWrite k b => (Machine.keyWrite k b s, .quiet)
  | .fbRead => (s, .pixels s.fb)
  | .reset init => (resetEvent init s, .quiet)
  | .loadFont font => (Machine.loadFont font s, .quiet)
  | .loadProgram source => afterLoad s (loadFromSource source s)

/-- A run over a schedule (D21): events one at a time in the order issued, with their outputs. -/
def runEvents : List Event → State → State × List Output
  | [], s => (s, [])
  | e :: es, s =>
    let after := applyEvent e s
    let rest := runEvents es after.1
    (rest.1, after.2 :: rest.2)

end Sys2Proof.Machine
end

