-- ==== Sys2Proof/Safety.lean ====
section
/-! DEFINITION. The terms claims use: the invariant of reachable states (R35), what an instruction leaves
unchanged (R33, R94), which pixels a sprite covers (R173), and what counts as a safe run (R209). -/

namespace Sys2Proof.Machine

/-! ### The invariant of reachable states -/

/-- Memory is in canonical form and lists only addresses of `MEM`. Memory as a list, and its form, are the
model's own choice (log 1), no rule of the spec. -/
abbrev MemoryOk (s : State) : Prop := s.mem.wf = true ∧ s.mem.bounded = true

/-- `pc <= 0x10FE` (R24, R35). -/
abbrev PcOk (s : State) : Prop := s.pc.toNat ≤ 0x10FE

/-- Every entry in use is the `pc0 + 2` of some executed CALL, hence between 0x002 and 0x1000 (R35). -/
abbrev StackOk (s : State) : Prop :=
  ∀ j : Fin 16, j.val < s.sp.val → 0x002 ≤ s.stack[j.val].toNat ∧ s.stack[j.val].toNat ≤ 0x1000

/-- What holds of every state reached from a boot: the bounds of R35 on `pc` and the stack, and `MemoryOk`, a clause
of the model's own (log 1). The bounds of R35 on `SP`, on the registers and on pixels hold by their types. -/
abbrev Inv (s : State) : Prop := MemoryOk s ∧ PcOk s ∧ StackOk s

/-! ### Frames -/

/-- The parts of the state other than the general registers. -/
inductive Part where
  /-- `I`. -/
  | indexReg
  /-- `pc`. -/
  | programCounter
  /-- `STACK` and `SP`. -/
  | callStack
  /-- `DT`. -/
  | delayTimer
  /-- `ST`. -/
  | soundTimer
  /-- `MEM`, read byte by byte. -/
  | memory
  /-- `FB`. -/
  | framebuffer
  /-- `KEYS`. -/
  | inputLatch
  /-- The model's count of `RND` draws. -/
  | drawCount
  /-- The parameter `VF_ALIAS_POLICY`. -/
  | policy
  deriving DecidableEq, Repr

/-- `t` has the same value in a part as `s`. -/
def SamePart (s t : State) : Part → Prop
  | .indexReg => t.regI = s.regI
  | .programCounter => t.pc = s.pc
  | .callStack => t.sp = s.sp ∧ t.stack = s.stack
  | .delayTimer => t.dt = s.dt
  | .soundTimer => t.st = s.st
  | .memory => ∀ a, t.readByte a = s.readByte a
  | .framebuffer => t.fb = s.fb
  | .inputLatch => t.keys = s.keys
  | .drawCount => t.draws = s.draws
  | .policy => t.aliasPolicy = s.aliasPolicy

/-- From `s` to `t` nothing changes but the named parts and the named general registers. -/
def ChangesOnly (parts : List Part) (regs : List Reg) (s t : State) : Prop :=
  (∀ p, p ∉ parts → SamePart s t p) ∧ ∀ r, r ∉ regs → t.getV r = s.getV r

/-- The parts, other than general registers, that the access table lets an instruction write (R24, R33). -/
def writtenParts : Instr → List Part
  | .cls => [.framebuffer]
  | .ret => [.programCounter, .callStack]
  | .jpNnn _ => [.programCounter]
  | .callNnn _ => [.programCounter, .callStack]
  | .seVxKk _ _ => [.programCounter]
  | .sneVxKk _ _ => [.programCounter]
  | .seVxVy _ _ => [.programCounter]
  | .sneVxVy _ _ => [.programCounter]
  | .ldVxKk _ _ => []
  | .addVxKk _ _ => []
  | .ldVxVy _ _ => []
  | .orVxVy _ _ => []
  | .andVxVy _ _ => []
  | .xorVxVy _ _ => []
  | .addVxVy _ _ => []
  | .subVxVy _ _ => []
  | .shrVx _ _ => []
  | .subnVxVy _ _ => []
  | .shlVx _ _ => []
  | .ldINnn _ => [.indexReg]
  | .jpV0Nnn _ => [.programCounter]
  | .rndVxKk _ _ => [.drawCount]
  | .drwVxVyN _ _ _ => [.framebuffer]
  | .skpVx _ => [.programCounter]
  | .sknpVx _ => [.programCounter]
  | .ldVxDt _ => []
  | .ldVxK _ => [.programCounter]
  | .ldDtVx _ => [.delayTimer]
  | .ldStVx _ => [.soundTimer]
  | .addIVx _ => [.indexReg]
  | .ldFVx _ => [.indexReg]
  | .ldBVx _ => [.memory]
  | .ldMemVx _ => [.memory]
  | .ldVxMem _ => []

/-- The general registers that the access table lets an instruction write (R22, R33). -/
def writtenRegs : Instr → List Reg
  | .cls => []
  | .ret => []
  | .jpNnn _ => []
  | .callNnn _ => []
  | .seVxKk _ _ => []
  | .sneVxKk _ _ => []
  | .seVxVy _ _ => []
  | .sneVxVy _ _ => []
  | .ldVxKk x _ => [x]
  | .addVxKk x _ => [x]
  | .ldVxVy x _ => [x]
  | .orVxVy x _ => [x]
  | .andVxVy x _ => [x]
  | .xorVxVy x _ => [x]
  | .addVxVy x _ => [x, vf]
  | .subVxVy x _ => [x, vf]
  | .shrVx x _ => [x, vf]
  | .subnVxVy x _ => [x, vf]
  | .shlVx x _ => [x, vf]
  | .ldINnn _ => []
  | .jpV0Nnn _ => []
  | .rndVxKk x _ => [x]
  | .drwVxVyN _ _ _ => [vf]
  | .skpVx _ => []
  | .sknpVx _ => []
  | .ldVxDt x => [x]
  | .ldVxK x => [x]
  | .ldDtVx _ => []
  | .ldStVx _ => []
  | .addIVx _ => []
  | .ldFVx _ => []
  | .ldBVx _ => []
  | .ldMemVx _ => []
  | .ldVxMem x => (List.finRange 16).filter fun r => decide (r.val ≤ x.val)

/-- How many bytes an instruction stores, from `State.dataAddr` up (the writes of R57 and R33). -/
def storeSize : Instr → Nat
  | .ldBVx _ => 3
  | .ldMemVx x => blockSize x
  | _ => 0

/-! ### The tables of the spec over all instructions -/

/-- `pc` after a completed step that runs `i` from the state `s` before the step (the table of R24). -/
def pcAfter (i : Instr) (s : State) : Word :=
  match i with
  | .jpNnn nnn => nnn.setWidth 16
  | .callNnn nnn => nnn.setWidth 16
  | .ret => if h : 0 < s.sp.val then s.stack[s.sp.val - 1] else s.pc
  | .jpV0Nnn nnn => nnn.setWidth 16 + (s.getV 0).setWidth 16
  | .seVxKk x kk => if s.getV x = kk then s.pc + 4 else s.pc + 2
  | .sneVxKk x kk => if s.getV x ≠ kk then s.pc + 4 else s.pc + 2
  | .seVxVy x y => if s.getV x = s.getV y then s.pc + 4 else s.pc + 2
  | .sneVxVy x y => if s.getV x ≠ s.getV y then s.pc + 4 else s.pc + 2
  | .skpVx x =>
    if ∃ k : Key, k.val = (s.getV x).toNat ∧ s.keyDown k = true then s.pc + 4 else s.pc + 2
  | .sknpVx x =>
    if ∃ k : Key, k.val = (s.getV x).toNat ∧ s.keyDown k = false then s.pc + 4 else s.pc + 2
  | .ldVxK _ => if ∃ k : Key, s.keyDown k = true then s.pc + 2 else s.pc
  | _ => s.pc + 2

/-- When an instruction, executing in `s`, raises its own fault (the table of R218). -/
def FaultsWhen (i : Instr) (s : State) : Prop :=
  match i with
  | .ret => s.sp.val = 0
  | .callNnn _ => s.sp.val = 16
  | .drwVxVyN _ _ n => 0 < n.val ∧ 0xFFF < s.regI.toNat + n.val - 1
  | .ldBVx _ => 0xFFF < s.regI.toNat + 2
  | .ldMemVx x => 0xFFF < s.regI.toNat + x.val
  | .ldVxMem x => 0xFFF < s.regI.toNat + x.val
  | .skpVx x => 0xF < (s.getV x).toNat
  | .sknpVx x => 0xF < (s.getV x).toNat
  | .addVxVy x y => (x = vf ∨ y = vf) ∧ s.aliasPolicy = .refuse
  | .subVxVy x y => (x = vf ∨ y = vf) ∧ s.aliasPolicy = .refuse
  | .subnVxVy x y => (x = vf ∨ y = vf) ∧ s.aliasPolicy = .refuse
  | .shrVx x _ => x = vf ∧ s.aliasPolicy = .refuse
  | .shlVx x _ => x = vf ∧ s.aliasPolicy = .refuse
  | _ => False

/-- The code (R200) of the one fault an instruction can raise, 0 for an instruction that raises none (R210,
R218). -/
def faultCode : Instr → Nat
  | .ret => 2
  | .callNnn _ => 3
  | .drwVxVyN _ _ _ => 4
  | .ldBVx _ => 4
  | .ldMemVx _ => 4
  | .ldVxMem _ => 4
  | .skpVx _ => 5
  | .sknpVx _ => 5
  | .addVxVy _ _ => 6
  | .subVxVy _ _ => 6
  | .subnVxVy _ _ => 6
  | .shrVx _ _ => 6
  | .shlVx _ _ => 6
  | _ => 0

/-- `i` is one of the five flag-writing ALU instructions of R126 on the fields `x` and `y`, `f` is its result as a
function of its operands and `flag` its flag in `s`, both written from R127 to R131. -/
def FlagAlu (s : State) (i : Instr) (x y : Reg) (f : Byte → Byte → Byte) (flag : Byte) : Prop :=
  let a := (s.getV x).toNat
  let b := (s.getV y).toNat
  (i = .addVxVy x y ∧ f = (fun p q => BitVec.ofNat 8 (p.toNat + q.toNat)) ∧
    flag = if a + b > 255 then 1 else 0) ∨
  (i = .subVxVy x y ∧ f = (fun p q => BitVec.ofNat 8 (256 + p.toNat - q.toNat)) ∧
    flag = if a > b then 1 else 0) ∨
  (i = .subnVxVy x y ∧ f = (fun p q => BitVec.ofNat 8 (256 + q.toNat - p.toNat)) ∧
    flag = if b > a then 1 else 0) ∨
  (i = .shrVx x y ∧ f = (fun p _ => BitVec.ofNat 8 (p.toNat / 2)) ∧
    flag = BitVec.ofNat 8 (a % 2)) ∨
  (i = .shlVx x y ∧ f = (fun p _ => BitVec.ofNat 8 (2 * p.toNat)) ∧
    flag = BitVec.ofNat 8 (a / 128))

/-- VF is an operand of a flag-writing ALU instruction: the list of alias cases of R132. -/
def VfIsOperand : Instr → Prop
  | .addVxVy x y => x = vf ∨ y = vf
  | .subVxVy x y => x = vf ∨ y = vf
  | .subnVxVy x y => x = vf ∨ y = vf
  | .shrVx x _ => x = vf
  | .shlVx x _ => x = vf
  | _ => False

/-- An alias case of R132. -/
def AliasCase (s : State) (i : Instr) (x y : Reg) (f : Byte → Byte → Byte) (flag : Byte) : Prop :=
  FlagAlu s i x y f flag ∧ VfIsOperand i

/-! ### Sprites -/

/-- A 1 bit of the sprite, in row `r` and column offset `c`, lands on pixel (`px`, `py`) (R173). -/
def SpriteCovers (rows : List Byte) (ox oy : Nat) (px : Fin 64) (py : Fin 32) : Prop :=
  ∃ r c : Nat, ∃ h : r < rows.length, c < 8 ∧ rows[r].getLsbD (7 - c) = true ∧
    (ox + c) % 64 = px.val ∧ (oy + r) % 32 = py.val

/-! ### Runs -/

/-- Two states that differ at most in the stack entries that are not in use, which R32 calls unobservable. -/
def SameButUnusedStack (s t : State) : Prop :=
  t = { s with stack := t.stack } ∧ ∀ j : Fin 16, j.val < s.sp.val → t.stack[j.val] = s.stack[j.val]

/-- An event other than `reset`. -/
def Event.isNotReset : Event → Bool
  | .reset _ => false
  | _ => true

/-- An event other than a key write. -/
def Event.isNotKeyWrite : Event → Bool
  | .keyWrite _ _ => false
  | _ => true

/-- A run over a schedule in which no step faults. The state after a fault never counts as a good final state
(R209). -/
def SafeRun (es : List Event) (s : State) : Prop := ∀ f, .faultReport f ∉ (runEvents es s).2

/-- The machine has stopped by the convention of R97: the word at `pc` is a jump to `pc`. -/
def Stopped (s : State) : Prop :=
  ∃ nnn : Addr12, fetch s = .ok (encode (.jpNnn nnn)) ∧ s.pc = addrWord nnn

end Sys2Proof.Machine
end

