-- ==== Sys2Proof/Certificates/Slice0/Obligations.lean ====
section
/-! DEFINITION. The statements for the provers. In a statement about `exec i s`, `s` is the state in which `i`
executes, after the fetch and the advance, so its `pc` is `pc0 + 2` (R10, R90). Words are written out as numbers
from the rules' own encodings. -/

open Sys2Proof Sys2Proof.Machine

/-! ### Encoding -/

/-- R75, R76: decoding the encoding of an instruction gives it back, with every operand, from the word, from the
bytes in address order whatever follows them, and from the table's numbering. -/
def Obligations.DecodeOfEncodeIsTheInstruction : Prop :=
  ∀ (i : Instr) (rest : List Byte),
    decodeWord (encode i) = some i ∧
    decodeBytes (encodeBytes i ++ rest) = .instr i rest ∧
    decodeTableWord 16 (encode i).toNat = some i

/-- R75: a word has one meaning, so no bit of a legal word is lost by decoding it. -/
def Obligations.EncodeOfDecodeIsTheWord : Prop :=
  ∀ (op : Word) (i : Instr), decodeWord op = some i → encode i = op

/-- R75, R76: the decoder's walk by families accepts exactly the words that some row of the opcode map admits,
gives a word an instruction of the row that admits it, the rows are disjoint, and a word that no row admits makes
the step fail with `IllegalOpcode`. -/
def Obligations.DecoderAgreesWithOpcodeRows : Prop :=
  (∀ op : Word, (∃ i, decodeWord op = some i) ↔ ∃ r ∈ opcodeRows, op &&& r.mask = r.value) ∧
  (∀ (op : Word) (i : Instr), decodeWord op = some i →
    i.row ∈ opcodeRows ∧ op &&& i.row.mask = i.row.value) ∧
  (∀ op : Word, ∀ r ∈ opcodeRows, ∀ q ∈ opcodeRows,
    op &&& r.mask = r.value → op &&& q.mask = q.value → r = q) ∧
  (∀ (s : State) (op : Word), fetch s = .ok op → (∀ r ∈ opcodeRows, op &&& r.mask ≠ r.value) →
    step s = .fault (.illegalOpcode s.pc op))

/-- Words written out from R76, one or more for each of the sixteen top nibbles, and words that R78 and R79 call
illegal. -/
def Obligations.SampleWordsDecode : Prop :=
  decodeWord 0x00E0 = some .cls ∧ decodeWord 0x1204 = some (.jpNnn 0x204) ∧
  decodeWord 0x2210 = some (.callNnn 0x210) ∧ decodeWord 0x3A42 = some (.seVxKk 0xA 0x42) ∧
  decodeWord 0x4311 = some (.sneVxKk 3 0x11) ∧ decodeWord 0x5120 = some (.seVxVy 1 2) ∧
  decodeWord 0x609C = some (.ldVxKk 0 0x9C) ∧ decodeWord 0x71FE = some (.addVxKk 1 0xFE) ∧
  decodeWord 0x8127 = some (.subnVxVy 1 2) ∧ decodeWord 0x9AB0 = some (.sneVxVy 0xA 0xB) ∧
  decodeWord 0xA30F = some (.ldINnn 0x30F) ∧ decodeWord 0xBABC = some (.jpV0Nnn 0xABC) ∧
  decodeWord 0xC30F = some (.rndVxKk 3 0x0F) ∧ decodeWord 0xD125 = some (.drwVxVyN 1 2 5) ∧ decodeWord 0xE49E = some (.skpVx 4) ∧
  decodeWord 0xF50A = some (.ldVxK 5) ∧ decodeWord 0xFF65 = some (.ldVxMem 0xF) ∧
  decodeWord 0x0000 = none ∧ decodeWord 0x5121 = none ∧ decodeWord 0x812F = none ∧ decodeWord 0xF075 = none

/-- R79: a word `0nnn` other than 0x00E0 and 0x00EE, 0x0000 among them, is `IllegalOpcode`. -/
def Obligations.ZeroFamilyWordsAreIllegal : Prop :=
  ∀ (s : State) (op : Word), fetch s = .ok op → op.toNat < 0x1000 → op ≠ 0x00E0 → op ≠ 0x00EE →
    step s = .fault (.illegalOpcode s.pc op)

/-! ### The step -/

/-- R90: a step fetches the word at `pc`, high byte first, advances `pc` by 2, and runs the decoded instruction
from there; on a fault the whole state is the pre-step state and the fault is reported. -/
def Obligations.StepRunsTheDecodedInstruction : Prop :=
  ∀ s : State,
    (s.pc.toNat ≤ 0xFFE → ∀ i,
      decodeWord (BitVec.ofNat 16 (0x100 * (s.readByte s.pc.toNat).toNat
        + (s.readByte (s.pc.toNat + 1)).toNat)) = some i →
      step s = exec i { s with pc := s.pc + 2 }) ∧
    (s.pc.toNat ≤ 0xFFE → ∀ op,
      op = BitVec.ofNat 16 (0x100 * (s.readByte s.pc.toNat).toNat + (s.readByte (s.pc.toNat + 1)).toNat) →
      decodeWord op = none → step s = .fault (.illegalOpcode s.pc op)) ∧
    (0xFFE < s.pc.toNat → step s = .fault (.addressOutOfRange s.pc (max s.pc.toNat 0x1000))) ∧
    (∀ f, step s = .fault f → applyEvent .step s = (s, .faultReport f)) ∧
    (∀ t, step s = .next t → applyEvent .step s = (t, .quiet))

/-- R52: what the fetch reads, and the address it reports when it would leave memory. -/
def Obligations.FetchReadsTwoBytesOrFaults : Prop :=
  ∀ s : State,
    (s.pc.toNat + 1 ≤ 0xFFF → ∃ op, fetch s = .ok op ∧
      op.toNat = 0x100 * (s.readByte s.pc.toNat).toNat + (s.readByte (s.pc.toNat + 1)).toNat) ∧
    (s.pc.toNat = 0xFFF → fetch s = .error (.addressOutOfRange s.pc 0x1000)) ∧
    (0x1000 ≤ s.pc.toNat → fetch s = .error (.addressOutOfRange s.pc s.pc.toNat))

/-- R207, R209: after a step that faults the whole state is the pre-step state, and a further step faults in the
same way. -/
def Obligations.FaultLeavesTheStateAndRecurs : Prop :=
  ∀ (s : State) (f : Fault), step s = .fault f →
    runEvents [.step, .step] s = (s, [.faultReport f, .faultReport f])

/-- The tables of R210 and R218, which the spec marks as derived: an executing instruction raises a fault exactly when the table says so, and the fault is the one
the table names for it. -/
def Obligations.InstructionsFaultExactlyByTheTable : Prop :=
  ∀ (i : Instr) (s : State),
    ((∃ f, exec i s = .fault f) ↔ FaultsWhen i s) ∧
    (∀ f, exec i s = .fault f → f.code = faultCode i)

/-- Part 2 of 93_implementation_defined.md: every opcode word and every state has a defined outcome, which is
either a next state or a fault. -/
def Obligations.EveryStepCompletesOrFaults : Prop :=
  ∀ s : State, (∃ t, step s = .next t) ∨ (∃ f, step s = .fault f)

/-- R24: how a completed step leaves `pc`, for every instruction. -/
def Obligations.PcAfterEveryInstruction : Prop :=
  ∀ (s t : State) (op : Word) (i : Instr), fetch s = .ok op → decodeWord op = some i → step s = .next t →
    t.pc = pcAfter i s

/-- R94, by the access table that R33 derives: an instruction changes only what the access table lets it write, and
of memory only the bytes it stores: three from `dataAddr` up for LD B, V0 to Vx's for LD [I], none for any other. -/
def Obligations.InstructionsWriteOnlyByTheTable : Prop :=
  ∀ (i : Instr) (s t : State), exec i s = .next t →
    ChangesOnly (writtenParts i) (writtenRegs i) s t ∧
    ∀ a, a < s.dataAddr ∨ s.dataAddr + storeSize i ≤ a → t.readByte a = s.readByte a

/-- R97: a jump to itself is a fixed point of `step`, and a tick leaves it one. -/
def Obligations.SelfJumpIsAFixedPoint : Prop :=
  ∀ s : State, Stopped s → step s = .next s ∧ Stopped (tick s).1

/-! ### Control flow -/

/-- R100: RET. -/
def Obligations.ReturnPopsTheNewestEntry : Prop :=
  decodeWord 0x00EE = some .ret ∧
  (∀ (s : State) (h : 0 < s.sp.val), ∃ t, exec .ret s = .next t ∧
    t.pc = s.stack[s.sp.val - 1] ∧ t.sp.val = s.sp.val - 1 ∧ t.stack = s.stack ∧
    ChangesOnly [.programCounter, .callStack] [] s t) ∧
  (∀ s : State, s.sp.val = 0 → exec .ret s = .fault (.stackUnderflow (s.pc - 2))) ∧
  (∀ s : State, s.sp.val = 0 → fetch s = .ok 0x00EE →
    applyEvent .step s = (s, .faultReport (.stackUnderflow s.pc)))

/-- R102: CALL. -/
def Obligations.CallPushesTheReturnAddress : Prop :=
  (∀ nnn : Addr12, decodeWord (BitVec.ofNat 16 (0x2000 + nnn.toNat)) = some (.callNnn nnn)) ∧
  (∀ (s : State) (nnn : Addr12) (h : s.sp.val < 16), ∃ t, exec (.callNnn nnn) s = .next t ∧
    t.pc.toNat = nnn.toNat ∧ t.sp.val = s.sp.val + 1 ∧ t.stack[s.sp.val] = s.pc ∧
    (∀ j : Fin 16, j.val ≠ s.sp.val → t.stack[j.val] = s.stack[j.val]) ∧
    ChangesOnly [.programCounter, .callStack] [] s t) ∧
  (∀ (s : State) (nnn : Addr12), s.sp.val = 16 →
    exec (.callNnn nnn) s = .fault (.stackOverflow (s.pc - 2))) ∧
  (∀ (s : State) (nnn : Addr12), s.sp.val = 16 → fetch s = .ok (BitVec.ofNat 16 (0x2000 + nnn.toNat)) →
    applyEvent .step s = (s, .faultReport (.stackOverflow s.pc)))

/-- R101, R107: JP and JP V0. The sum of JP V0 is not reduced to 12 bits. -/
def Obligations.JumpsSetThePc : Prop :=
  (∀ nnn : Addr12, decodeWord (BitVec.ofNat 16 (0x1000 + nnn.toNat)) = some (.jpNnn nnn)) ∧
  (∀ nnn : Addr12, decodeWord (BitVec.ofNat 16 (0xB000 + nnn.toNat)) = some (.jpV0Nnn nnn)) ∧
  (∀ (s : State) (nnn : Addr12), ∃ t, exec (.jpNnn nnn) s = .next t ∧ t.pc.toNat = nnn.toNat ∧
    ChangesOnly [.programCounter] [] s t) ∧
  (∀ (s : State) (nnn : Addr12), ∃ t, exec (.jpV0Nnn nnn) s = .next t ∧
    t.pc.toNat = nnn.toNat + (s.getV 0).toNat ∧ ChangesOnly [.programCounter] [] s t)

/-- R103, R104: SE Vx, kk and SNE Vx, kk. -/
def Obligations.SkipsOnImmediate : Prop :=
  (∀ (x : Reg) (kk : Byte),
    decodeWord (BitVec.ofNat 16 (0x3000 + 0x100 * x.val + kk.toNat)) = some (.seVxKk x kk) ∧
    decodeWord (BitVec.ofNat 16 (0x4000 + 0x100 * x.val + kk.toNat)) = some (.sneVxKk x kk)) ∧
  (∀ (s : State) (x : Reg) (kk : Byte), ∃ t, exec (.seVxKk x kk) s = .next t ∧
    t.pc = (if s.getV x = kk then s.pc + 2 else s.pc) ∧ ChangesOnly [.programCounter] [] s t) ∧
  (∀ (s : State) (x : Reg) (kk : Byte), ∃ t, exec (.sneVxKk x kk) s = .next t ∧
    t.pc = (if s.getV x = kk then s.pc else s.pc + 2) ∧ ChangesOnly [.programCounter] [] s t)

/-- R105, R106: SE Vx, Vy and SNE Vx, Vy. -/
def Obligations.SkipsOnRegister : Prop :=
  (∀ x y : Reg,
    decodeWord (BitVec.ofNat 16 (0x5000 + 0x100 * x.val + 0x10 * y.val)) = some (.seVxVy x y) ∧
    decodeWord (BitVec.ofNat 16 (0x9000 + 0x100 * x.val + 0x10 * y.val)) = some (.sneVxVy x y)) ∧
  (∀ (x y : Reg) (n : Nat), 1 ≤ n → n ≤ 0xF →
    decodeWord (BitVec.ofNat 16 (0x5000 + 0x100 * x.val + 0x10 * y.val + n)) = none ∧
    decodeWord (BitVec.ofNat 16 (0x9000 + 0x100 * x.val + 0x10 * y.val + n)) = none) ∧
  (∀ (s : State) (x y : Reg), ∃ t, exec (.seVxVy x y) s = .next t ∧
    t.pc = (if s.getV x = s.getV y then s.pc + 2 else s.pc) ∧ ChangesOnly [.programCounter] [] s t) ∧
  (∀ (s : State) (x y : Reg), ∃ t, exec (.sneVxVy x y) s = .next t ∧
    t.pc = (if s.getV x = s.getV y then s.pc else s.pc + 2) ∧ ChangesOnly [.programCounter] [] s t)

/-! ### Registers, arithmetic and logic -/

/-- R120, R121: LD Vx, kk and ADD Vx, kk. VF is written only where it is Vx. -/
def Obligations.ImmediateLoadAndAdd : Prop :=
  (∀ (x : Reg) (kk : Byte),
    decodeWord (BitVec.ofNat 16 (0x6000 + 0x100 * x.val + kk.toNat)) = some (.ldVxKk x kk) ∧
    decodeWord (BitVec.ofNat 16 (0x7000 + 0x100 * x.val + kk.toNat)) = some (.addVxKk x kk)) ∧
  (∀ (s : State) (x : Reg) (kk : Byte), ∃ t, exec (.ldVxKk x kk) s = .next t ∧
    t.getV x = kk ∧ ChangesOnly [] [x] s t) ∧
  (∀ (s : State) (x : Reg) (kk : Byte), ∃ t, exec (.addVxKk x kk) s = .next t ∧
    (t.getV x).toNat = ((s.getV x).toNat + kk.toNat) % 256 ∧ ChangesOnly [] [x] s t)

/-- R122 to R125: LD Vx, Vy, OR, AND, XOR. VF is written only where it is Vx. -/
def Obligations.RegisterCopyAndLogic : Prop :=
  (∀ x y : Reg,
    decodeWord (BitVec.ofNat 16 (0x8000 + 0x100 * x.val + 0x10 * y.val)) = some (.ldVxVy x y) ∧
    decodeWord (BitVec.ofNat 16 (0x8001 + 0x100 * x.val + 0x10 * y.val)) = some (.orVxVy x y) ∧
    decodeWord (BitVec.ofNat 16 (0x8002 + 0x100 * x.val + 0x10 * y.val)) = some (.andVxVy x y) ∧
    decodeWord (BitVec.ofNat 16 (0x8003 + 0x100 * x.val + 0x10 * y.val)) = some (.xorVxVy x y)) ∧
  (∀ (s : State) (x y : Reg), ∃ t, exec (.ldVxVy x y) s = .next t ∧
    t.getV x = s.getV y ∧ ChangesOnly [] [x] s t) ∧
  (∀ (s : State) (x y : Reg), ∃ t, exec (.orVxVy x y) s = .next t ∧
    (∀ k : Nat, (t.getV x).getLsbD k = ((s.getV x).getLsbD k || (s.getV y).getLsbD k)) ∧
    ChangesOnly [] [x] s t) ∧
  (∀ (s : State) (x y : Reg), ∃ t, exec (.andVxVy x y) s = .next t ∧
    (∀ k : Nat, (t.getV x).getLsbD k = ((s.getV x).getLsbD k && (s.getV y).getLsbD k)) ∧
    ChangesOnly [] [x] s t) ∧
  (∀ (s : State) (x y : Reg), ∃ t, exec (.xorVxVy x y) s = .next t ∧
    (∀ k : Nat, (t.getV x).getLsbD k = ((s.getV x).getLsbD k ^^ (s.getV y).getLsbD k)) ∧
    ChangesOnly [] [x] s t)

/-- R127: ADD Vx, Vy, where VF is no operand, and the refusal of the default policy where it is. -/
def Obligations.AddSetsTheCarry : Prop :=
  (∀ x y : Reg, decodeWord (BitVec.ofNat 16 (0x8004 + 0x100 * x.val + 0x10 * y.val)) = some (.addVxVy x y)) ∧
  (∀ (s : State) (x y : Reg), x ≠ vf → y ≠ vf → ∃ t, exec (.addVxVy x y) s = .next t ∧
    (t.getV x).toNat = ((s.getV x).toNat + (s.getV y).toNat) % 256 ∧
    t.getV vf = (if (s.getV x).toNat + (s.getV y).toNat > 255 then 1 else 0) ∧
    ChangesOnly [] [x, vf] s t) ∧
  (∀ (s : State) (x y : Reg), (x = vf ∨ y = vf) → s.aliasPolicy = .refuse →
    exec (.addVxVy x y) s =
      .fault (.unspecifiedAlias (s.pc - 2) (BitVec.ofNat 16 (0x8004 + 0x100 * x.val + 0x10 * y.val))))

/-- R128: SUB Vx, Vy, where VF is no operand, and the refusal of the default policy where it is. -/
def Obligations.SubSetsTheFlagStrictly : Prop :=
  (∀ x y : Reg, decodeWord (BitVec.ofNat 16 (0x8005 + 0x100 * x.val + 0x10 * y.val)) = some (.subVxVy x y)) ∧
  (∀ (s : State) (x y : Reg), x ≠ vf → y ≠ vf → ∃ t, exec (.subVxVy x y) s = .next t ∧
    (t.getV x).toNat = (256 + (s.getV x).toNat - (s.getV y).toNat) % 256 ∧
    t.getV vf = (if (s.getV x).toNat > (s.getV y).toNat then 1 else 0) ∧
    ChangesOnly [] [x, vf] s t) ∧
  (∀ (s : State) (x y : Reg), (x = vf ∨ y = vf) → s.aliasPolicy = .refuse →
    exec (.subVxVy x y) s =
      .fault (.unspecifiedAlias (s.pc - 2) (BitVec.ofNat 16 (0x8005 + 0x100 * x.val + 0x10 * y.val))))

/-- R130: SUBN Vx, Vy, where VF is no operand, and the refusal of the default policy where it is. -/
def Obligations.SubnSetsTheFlagStrictly : Prop :=
  (∀ x y : Reg, decodeWord (BitVec.ofNat 16 (0x8007 + 0x100 * x.val + 0x10 * y.val)) = some (.subnVxVy x y)) ∧
  (∀ (s : State) (x y : Reg), x ≠ vf → y ≠ vf → ∃ t, exec (.subnVxVy x y) s = .next t ∧
    (t.getV x).toNat = (256 + (s.getV y).toNat - (s.getV x).toNat) % 256 ∧
    t.getV vf = (if (s.getV y).toNat > (s.getV x).toNat then 1 else 0) ∧
    ChangesOnly [] [x, vf] s t) ∧
  (∀ (s : State) (x y : Reg), (x = vf ∨ y = vf) → s.aliasPolicy = .refuse →
    exec (.subnVxVy x y) s =
      .fault (.unspecifiedAlias (s.pc - 2) (BitVec.ofNat 16 (0x8007 + 0x100 * x.val + 0x10 * y.val))))

/-- R129, R131: SHR and SHL shift Vx by one bit, and the bit shifted out goes to VF, for every value of the
unused field `y`. -/
def Obligations.ShiftsPutTheBitOutInVf : Prop :=
  (∀ x y : Reg,
    decodeWord (BitVec.ofNat 16 (0x8006 + 0x100 * x.val + 0x10 * y.val)) = some (.shrVx x y) ∧
    decodeWord (BitVec.ofNat 16 (0x800E + 0x100 * x.val + 0x10 * y.val)) = some (.shlVx x y)) ∧
  (∀ (s : State) (x y : Reg), x ≠ vf → ∃ t, exec (.shrVx x y) s = .next t ∧
    (t.getV x).toNat = (s.getV x).toNat / 2 ∧ (t.getV vf).toNat = (s.getV x).toNat % 2 ∧
    ChangesOnly [] [x, vf] s t) ∧
  (∀ (s : State) (x y : Reg), x ≠ vf → ∃ t, exec (.shlVx x y) s = .next t ∧
    (t.getV x).toNat = 2 * (s.getV x).toNat % 256 ∧ (t.getV vf).toNat = (s.getV x).toNat / 128 ∧
    ChangesOnly [] [x, vf] s t) ∧
  (∀ (s : State) (y : Reg), s.aliasPolicy = .refuse →
    exec (.shrVx vf y) s = .fault (.unspecifiedAlias (s.pc - 2) (BitVec.ofNat 16 (0x8F06 + 0x10 * y.val))) ∧
    exec (.shlVx vf y) s = .fault (.unspecifiedAlias (s.pc - 2) (BitVec.ofNat 16 (0x8F0E + 0x10 * y.val))))

/-- R132: the four policies, in every alias case of the five flag-writing ALU instructions; outside the alias cases
all four give the result and the flag of R127 to R131. -/
def Obligations.AliasPolicyDecidesTheWrites : Prop :=
  (∀ (s : State) (i : Instr) (x y : Reg) (f : Byte → Byte → Byte) (flag : Byte),
    AliasCase s i x y f flag →
    (s.aliasPolicy = .refuse → ∀ op, decodeWord op = some i →
      exec i s = .fault (.unspecifiedAlias (s.pc - 2) op) ∧
      (fetch s = .ok op → applyEvent .step s = (s, .faultReport (.unspecifiedAlias s.pc op)))) ∧
    (s.aliasPolicy = .flagLast → ∃ t, exec i s = .next t ∧ t.getV vf = flag ∧
      (x ≠ vf → t.getV x = f (s.getV x) (s.getV y)) ∧ ChangesOnly [] [x, vf] s t) ∧
    (s.aliasPolicy = .resultLast → ∃ t, exec i s = .next t ∧ t.getV x = f (s.getV x) (s.getV y) ∧
      (x ≠ vf → t.getV vf = flag) ∧ ChangesOnly [] [x, vf] s t) ∧
    (s.aliasPolicy = .sequential → ∃ t, exec i s = .next t ∧
      t.getV x = f (if x = vf then flag else s.getV x) (if y = vf then flag else s.getV y) ∧
      (x ≠ vf → t.getV vf = flag) ∧ ChangesOnly [] [x, vf] s t)) ∧
  (∀ (s : State) (i : Instr) (x y : Reg) (f : Byte → Byte → Byte) (flag : Byte) (p : Config.VfAliasPolicy),
    FlagAlu s i x y f flag → ¬VfIsOperand i →
    ∃ t, exec i s = .next t ∧ t.getV x = f (s.getV x) (s.getV y) ∧ t.getV vf = flag ∧
      ChangesOnly [] [x, vf] s t ∧
      exec i { s with aliasPolicy := p } = .next { t with aliasPolicy := p })

/-- R22, R35: each of the six flag-writing instructions leaves VF 0 or 1 when it completes outside the alias
cases. -/
def Obligations.FlagWritersLeaveZeroOrOne : Prop :=
  ∀ (s t : State) (i : Instr) (x y : Reg), exec i s = .next t →
    (((i = .addVxVy x y ∨ i = .subVxVy x y ∨ i = .subnVxVy x y) ∧ x ≠ vf ∧ y ≠ vf) ∨
      ((i = .shrVx x y ∨ i = .shlVx x y) ∧ x ≠ vf) ∨ ∃ n, i = .drwVxVyN x y n) →
    t.getV vf = 0 ∨ t.getV vf = 1

/-- R133: RND stores the draw masked by `kk`, whatever the draw is, and consumes one draw. -/
def Obligations.RandomStoresTheMaskedDraw : Prop :=
  (∀ (x : Reg) (kk : Byte),
    decodeWord (BitVec.ofNat 16 (0xC000 + 0x100 * x.val + kk.toNat)) = some (.rndVxKk x kk)) ∧
  (∀ (s : State) (x : Reg) (kk : Byte), ∃ t, exec (.rndVxKk x kk) s = .next t ∧
    t.getV x = Config.rnd s.draws &&& kk ∧ (t.getV x).toNat ≤ kk.toNat ∧
    (∀ k, kk.getLsbD k = false → (t.getV x).getLsbD k = false) ∧
    t.draws = s.draws + 1 ∧ ChangesOnly [.drawCount] [x] s t) ∧
  (∀ (i : Instr) (s t : State), exec i s = .next t → (∀ x kk, i ≠ .rndVxKk x kk) → t.draws = s.draws) ∧
  (∀ (s : State) (f : Fault), step s = .fault f → (applyEvent .step s).1.draws = s.draws)

/-! ### Index register and memory -/

/-- R150, R151, R152: LD I, ADD I and LD F. -/
def Obligations.IndexRegisterInstructions : Prop :=
  (∀ nnn : Addr12, decodeWord (BitVec.ofNat 16 (0xA000 + nnn.toNat)) = some (.ldINnn nnn)) ∧
  (∀ x : Reg, decodeWord (BitVec.ofNat 16 (0xF01E + 0x100 * x.val)) = some (.addIVx x) ∧
    decodeWord (BitVec.ofNat 16 (0xF029 + 0x100 * x.val)) = some (.ldFVx x)) ∧
  (∀ (s : State) (nnn : Addr12), ∃ t, exec (.ldINnn nnn) s = .next t ∧ t.regI.toNat = nnn.toNat ∧
    ChangesOnly [.indexReg] [] s t) ∧
  (∀ (s : State) (x : Reg), ∃ t, exec (.addIVx x) s = .next t ∧
    t.regI.toNat = (s.regI.toNat + (s.getV x).toNat) % 65536 ∧ ChangesOnly [.indexReg] [] s t) ∧
  (∀ (s : State) (x : Reg), ∃ t, exec (.ldFVx x) s = .next t ∧
    t.regI.toNat = 0x050 + 5 * (s.getV x).toNat ∧ ChangesOnly [.indexReg] [] s t)

/-- R153: LD B. The address stored to is `dataAddr`, that is `I`; the canonical form of memory is a premise only
where the bytes stored are read back. -/
def Obligations.BcdStoresThreeDigits : Prop :=
  (∀ x : Reg, decodeWord (BitVec.ofNat 16 (0xF033 + 0x100 * x.val)) = some (.ldBVx x)) ∧
  (∀ (s : State) (x : Reg), s.dataAddr + 2 ≤ 0xFFF → ∃ t, exec (.ldBVx x) s = .next t ∧
    (s.mem.wf = true →
      (t.readByte s.dataAddr).toNat = (s.getV x).toNat / 100 ∧
      (t.readByte (s.dataAddr + 1)).toNat = (s.getV x).toNat / 10 % 10 ∧
      (t.readByte (s.dataAddr + 2)).toNat = (s.getV x).toNat % 10) ∧
    (∀ a, a < s.dataAddr ∨ s.dataAddr + 2 < a → t.readByte a = s.readByte a) ∧
    ChangesOnly [.memory] [] s t) ∧
  (∀ (s : State) (x : Reg), 0xFFF < s.dataAddr + 2 →
    exec (.ldBVx x) s = .fault (.addressOutOfRange (s.pc - 2) (max s.dataAddr 0x1000))) ∧
  (∀ s : State, s.dataAddr = s.regI.toNat)

/-- R154: LD [I], Vx stores V0 to Vx at `dataAddr`, that is `I`, upwards. -/
def Obligations.RegisterDumpStoresTheBlock : Prop :=
  (∀ x : Reg, decodeWord (BitVec.ofNat 16 (0xF055 + 0x100 * x.val)) = some (.ldMemVx x)) ∧
  (∀ (s : State) (x : Reg), s.dataAddr + x.val ≤ 0xFFF → ∃ t, exec (.ldMemVx x) s = .next t ∧
    (s.mem.wf = true → ∀ r : Reg, r.val ≤ x.val → t.readByte (s.dataAddr + r.val) = s.getV r) ∧
    (∀ a, a < s.dataAddr ∨ s.dataAddr + x.val < a → t.readByte a = s.readByte a) ∧
    ChangesOnly [.memory] [] s t) ∧
  (∀ (s : State) (x : Reg), 0xFFF < s.dataAddr + x.val →
    exec (.ldMemVx x) s = .fault (.addressOutOfRange (s.pc - 2) (max s.dataAddr 0x1000))) ∧
  (∀ s : State, s.dataAddr = s.regI.toNat)

/-- R155: LD Vx, [I] loads V0 to Vx and no other register. -/
def Obligations.RegisterLoadReadsTheBlock : Prop :=
  (∀ x : Reg, decodeWord (BitVec.ofNat 16 (0xF065 + 0x100 * x.val)) = some (.ldVxMem x)) ∧
  (∀ (s : State) (x : Reg), s.regI.toNat + x.val ≤ 0xFFF → ∃ t, exec (.ldVxMem x) s = .next t ∧
    (∀ r : Reg, r.val ≤ x.val → t.getV r = s.readByte (s.regI.toNat + r.val)) ∧
    (∀ r : Reg, x.val < r.val → t.getV r = s.getV r) ∧
    ChangesOnly [] (writtenRegs (.ldVxMem x)) s t) ∧
  (∀ (s : State) (x : Reg), 0xFFF < s.regI.toNat + x.val →
    exec (.ldVxMem x) s = .fault (.addressOutOfRange (s.pc - 2) (max s.regI.toNat 0x1000)))

/-- The round trip of R155: a block that was stored and not overwritten loads back, whatever the registers hold
by then. -/
def Obligations.DumpThenLoadRestoresTheRegisters : Prop :=
  ∀ (s u : State) (x : Reg), s.mem.wf = true → s.regI.toNat + x.val ≤ 0xFFF → ∃ t,
    exec (.ldMemVx x) s = .next t ∧
    (u.regI = s.regI →
      (∀ r : Reg, r.val ≤ x.val → u.readByte (s.regI.toNat + r.val) = t.readByte (s.regI.toNat + r.val)) →
      ∃ w, exec (.ldVxMem x) u = .next w ∧ ∀ r : Reg, r.val ≤ x.val → w.getV r = s.getV r)

/-- R53, R59: a read returns the last byte written to that cell, and a write leaves every other cell alone. -/
def Obligations.MemoryReadAfterWrite : Prop :=
  ∀ (m : Memory) (a c : Nat) (b : Byte), m.wf = true → (m.write a b).read c = if c = a then b else m.read c

/-- The canonical form is one form: two memories that hold the same bytes are the same list (the model's own
choice, log 1). -/
def Obligations.EqualBytesAreEqualMemories : Prop :=
  ∀ m n : Memory, m.wf = true → n.wf = true → (∀ a, m.read a = n.read a) → m = n

/-! ### Display -/

/-- R171: CLS. -/
def Obligations.ClearDarkensEveryPixel : Prop :=
  decodeWord 0x00E0 = some .cls ∧
  ∀ s : State, ∃ t, exec .cls s = .next t ∧ (∀ j, t.fb.at j = false) ∧ ChangesOnly [.framebuffer] [] s t

/-- R172: DRW. -/
def Obligations.DrawXorsTheSpriteAtTheIndex : Prop :=
  (∀ (x y : Reg) (n : Fin 16),
    decodeWord (BitVec.ofNat 16 (0xD000 + 0x100 * x.val + 0x10 * y.val + n.val)) = some (.drwVxVyN x y n)) ∧
  (∀ (s : State) (x y : Reg) (n : Fin 16) (rows : List Byte),
    n.val = 0 ∨ s.regI.toNat + n.val - 1 ≤ 0xFFF →
    rows = (List.range n.val).map (fun r => s.readByte (s.regI.toNat + r)) →
    ∃ t, exec (.drwVxVyN x y n) s = .next t ∧
      t.fb = (drawSprite rows (s.getV x).toNat (s.getV y).toNat s.fb).1 ∧
      t.getV vf = (if (drawSprite rows (s.getV x).toNat (s.getV y).toNat s.fb).2 then 1 else 0) ∧
      (n.val = 0 → t.fb = s.fb ∧ t.getV vf = 0) ∧
      ChangesOnly [.framebuffer] [vf] s t) ∧
  (∀ (s : State) (x y : Reg) (n : Fin 16), 0 < n.val → 0xFFF < s.regI.toNat + n.val - 1 →
    exec (.drwVxVyN x y n) s = .fault (.addressOutOfRange (s.pc - 2) (max s.regI.toNat 0x1000)))

/-- R173: a draw toggles exactly the pixels its 1 bits land on, each reduced `mod 64` and `mod 32` on its own,
and collides exactly when one of them was lit before. That bit 7 is the leftmost is the spec's decision D11
(log 16). -/
def Obligations.DrawTogglesExactlyTheCoveredPixels : Prop :=
  ∀ (rows : List Byte) (ox oy : Nat) (fb : Framebuffer), rows.length ≤ 15 →
    (∀ px py, SpriteCovers rows ox oy px py →
      (drawSprite rows ox oy fb).1.pixel px py = !fb.pixel px py) ∧
    (∀ px py, ¬SpriteCovers rows ox oy px py →
      (drawSprite rows ox oy fb).1.pixel px py = fb.pixel px py) ∧
    ((drawSprite rows ox oy fb).2 = true ↔
      ∃ px py, SpriteCovers rows ox oy px py ∧ fb.pixel px py = true)

/-- What R174 derives: drawing the same sprite at the same origin twice restores the framebuffer, and the second draw
collides exactly when the first lit some pixel. -/
def Obligations.DrawingTwiceRestoresTheFramebuffer : Prop :=
  ∀ (rows : List Byte) (ox oy : Nat) (fb : Framebuffer), rows.length ≤ 15 →
    (drawSprite rows ox oy (drawSprite rows ox oy fb).1).1 = fb ∧
    ((drawSprite rows ox oy (drawSprite rows ox oy fb).1).2 = true ↔
      ∃ px py, SpriteCovers rows ox oy px py ∧ fb.pixel px py = false)

/-! ### Keys and timers -/

/-- R185, R186: SKP and SKNP. -/
def Obligations.KeySkips : Prop :=
  (∀ x : Reg, decodeWord (BitVec.ofNat 16 (0xE09E + 0x100 * x.val)) = some (.skpVx x) ∧
    decodeWord (BitVec.ofNat 16 (0xE0A1 + 0x100 * x.val)) = some (.sknpVx x)) ∧
  (∀ (s : State) (x : Reg) (k : Key), (s.getV x).toNat = k.val →
    (∃ t, exec (.skpVx x) s = .next t ∧
      t.pc = (if s.keyDown k then s.pc + 2 else s.pc) ∧ ChangesOnly [.programCounter] [] s t) ∧
    (∃ t, exec (.sknpVx x) s = .next t ∧
      t.pc = (if s.keyDown k then s.pc else s.pc + 2) ∧ ChangesOnly [.programCounter] [] s t)) ∧
  (∀ (s : State) (x : Reg), 0xF < (s.getV x).toNat →
    exec (.skpVx x) s = .fault (.keyIndexOutOfRange (s.pc - 2) (s.getV x)) ∧
    exec (.sknpVx x) s = .fault (.keyIndexOutOfRange (s.pc - 2) (s.getV x)))

/-- R188: LD Vx, K. -/
def Obligations.WaitKeyTakesTheLowestKeyOrRepeats : Prop :=
  (∀ x : Reg, decodeWord (BitVec.ofNat 16 (0xF00A + 0x100 * x.val)) = some (.ldVxK x)) ∧
  (∀ (s : State) (x : Reg) (k : Key), s.keyDown k = true → (∀ j, j < k → s.keyDown j = false) →
    ∃ t, exec (.ldVxK x) s = .next t ∧ (t.getV x).toNat = k.val ∧ ChangesOnly [] [x] s t) ∧
  (∀ (s : State) (x : Reg), (∀ k, s.keyDown k = false) →
    ∃ t, exec (.ldVxK x) s = .next t ∧ t.pc = s.pc - 2 ∧ ChangesOnly [.programCounter] [] s t) ∧
  (∀ (s : State) (x : Reg), (∀ k, s.keyDown k = false) →
    fetch s = .ok (BitVec.ofNat 16 (0xF00A + 0x100 * x.val)) → step s = .next s)

/-- R187, R189, R190: LD Vx, DT, LD DT, Vx and LD ST, Vx. A step emits no `sound_stop`. -/
def Obligations.TimerInstructionsCopy : Prop :=
  (∀ x : Reg, decodeWord (BitVec.ofNat 16 (0xF007 + 0x100 * x.val)) = some (.ldVxDt x) ∧
    decodeWord (BitVec.ofNat 16 (0xF015 + 0x100 * x.val)) = some (.ldDtVx x) ∧
    decodeWord (BitVec.ofNat 16 (0xF018 + 0x100 * x.val)) = some (.ldStVx x)) ∧
  (∀ (s : State) (x : Reg), ∃ t, exec (.ldVxDt x) s = .next t ∧ t.getV x = s.dt ∧
    ChangesOnly [] [x] s t) ∧
  (∀ (s : State) (x : Reg), ∃ t, exec (.ldDtVx x) s = .next t ∧ t.dt = s.getV x ∧
    ChangesOnly [.delayTimer] [] s t) ∧
  (∀ (s : State) (x : Reg), ∃ t, exec (.ldStVx x) s = .next t ∧ t.st = s.getV x ∧
    ChangesOnly [.soundTimer] [] s t) ∧
  (∀ s : State, (applyEvent .step s).2 ≠ .soundStop)

/-- R191: the tick. -/
def Obligations.TickCountsBothTimersDown : Prop :=
  ∀ s : State, ∃ t out, applyEvent .tick s = (t, out) ∧
    t.dt.toNat = s.dt.toNat - 1 ∧ t.st.toNat = s.st.toNat - 1 ∧
    out = (if s.st = 1 then .soundStop else .quiet) ∧
    ChangesOnly [.delayTimer, .soundTimer] [] s t

/-- R192: a tick that finds ST at 1 emits `sound_stop` and nothing else does; with ST at N, one or more, the Nth
following tick emits it and no tick before or after does; between ticks ST holds still until a reset or LD ST, Vx
writes it. -/
def Obligations.NthTickEmitsSoundStop : Prop :=
  (∀ (e : Event) (s : State), (applyEvent e s).2 = .soundStop ↔ e = .tick ∧ s.st = 1) ∧
  (∀ (s : State) (n k : Nat), s.st.toNat = n → 1 ≤ n →
    (runEvents (List.replicate (n + k) .tick) s).2 =
      List.replicate (n - 1) .quiet ++ .soundStop :: List.replicate k .quiet) ∧
  (∀ (e : Event) (s : State), e.isNotReset = true → e ≠ .tick →
    (e = .step → ∀ op x, fetch s = .ok op → decodeWord op ≠ some (.ldStVx x)) →
    (applyEvent e s).1.st = s.st)

/-- R29: `key_write` sets one entry of the latch and nothing else, and without it no run changes KEYS. -/
def Obligations.OnlyKeyWritesChangeTheLatch : Prop :=
  (∀ (s : State) (k : Key) (b : Bool), ∃ t, applyEvent (.keyWrite k b) s = (t, .quiet) ∧
    t.keyDown k = b ∧ (∀ j, j ≠ k → t.keyDown j = s.keyDown j) ∧ ChangesOnly [.inputLatch] [] s t) ∧
  (∀ (es : List Event) (s : State), (∀ e ∈ es, e.isNotKeyWrite = true) → (runEvents es s).1.keys = s.keys)

/-- R26, and what R32 derives: no instruction reads ST, so a step does the same whatever ST holds. -/
def Obligations.NoInstructionReadsTheSoundTimer : Prop :=
  ∀ (s : State) (b : Byte),
    (∀ t, step s = .next t → ∃ c, step (s.setSt b) = .next (t.setSt c)) ∧
    (∀ f, step s = .fault f → step (s.setSt b) = .fault f)

/-- R29, and what R33 derives: no instruction but SKP, SKNP and LD Vx, K reads the latch, so any other does the same whatever
keys are down. -/
def Obligations.OnlyKeyInstructionsReadTheLatch : Prop :=
  ∀ (i : Instr) (s : State) (keys : Vector Bool 16),
    (∀ x, i ≠ .skpVx x) → (∀ x, i ≠ .sknpVx x) → (∀ x, i ≠ .ldVxK x) →
    (∀ t, exec i s = .next t → exec i { s with keys := keys } = .next { t with keys := keys }) ∧
    (∀ f, exec i s = .fault f → exec i { s with keys := keys } = .fault f)

/-- R26, R193: no event raises DT but a reset and a step that runs LD DT, Vx. -/
def Obligations.DelayTimerNeverRisesUnwritten : Prop :=
  ∀ (e : Event) (s : State), e.isNotReset = true →
    (e = .step → ∀ op x, fetch s = .ok op → decodeWord op ≠ some (.ldDtVx x)) →
    (applyEvent e s).1.dt.toNat ≤ s.dt.toNat

/-! ### Reset and loads -/

/-- R34, R230: what the reset event fixes, what it takes from INIT, and what it leaves alone. -/
def Obligations.ResetClearsTheFramebufferAndTheStack : Prop :=
  ∀ (init : Init) (s : State), ∃ t, applyEvent (.reset init) s = (t, .quiet) ∧
    (∀ j, t.fb.at j = false) ∧ t.sp.val = 0 ∧ t.keys = s.keys ∧
    t.v = init.v ∧ t.regI = init.regI ∧ t.pc = init.pc ∧ t.stack = init.stack ∧
    t.dt = init.dt ∧ t.st = init.st ∧
    ∀ (a : Nat) (h : a < init.image.length), a ≤ 0xFFF → t.readByte a = init.image[a]

/-- R233: `load_font`. -/
def Obligations.LoadFontWritesTheFontRange : Prop :=
  ∀ (font : Vector Byte 80) (s : State), ∃ t, applyEvent (.loadFont font) s = (t, .quiet) ∧
    (s.mem.wf = true → ∀ (k : Nat) (h : k < 80), t.readByte (0x050 + k) = font[k]) ∧
    (∀ a, a < 0x050 ∨ 0x09F < a → t.readByte a = s.readByte a) ∧
    ChangesOnly [.memory] [] s t

/-- R235: `load_program`. -/
def Obligations.LoadProgramIsAllOrNothing : Prop :=
  (∀ (bytes : List Byte) (s : State), bytes.length + 0x200 > 4096 →
    applyEvent (.loadProgram (some bytes)) s = (s, .loadFailed .capacityExceeded)) ∧
  (∀ (bytes : List Byte) (s : State), bytes.length + 0x200 ≤ 4096 →
    ∃ t, applyEvent (.loadProgram (some bytes)) s = (t, .quiet) ∧ t.pc = 0x200 ∧
      (s.mem.wf = true → ∀ (k : Nat) (h : k < bytes.length), t.readByte (0x200 + k) = bytes[k]) ∧
      (∀ a, a < 0x200 ∨ 0x200 + bytes.length ≤ a → t.readByte a = s.readByte a) ∧
      ChangesOnly [.memory, .programCounter] [] s t)

/-- What R66 derives: `load_font` and `load_program` give the same machine in either order. -/
def Obligations.LoadsCommute : Prop :=
  ∀ (font : Vector Byte 80) (bytes : List Byte) (s : State), s.mem.wf = true →
    loadProgram bytes (loadFont font s) = (loadProgram bytes s).map (loadFont font)

/-- R236: the state that the boot sequence leaves. -/
def Obligations.BootStateIsAsTheTableSays : Prop :=
  ∀ (init : Init) (font : Vector Byte 80) (bytes : List Byte) (s : State), bytes.length ≤ 3584 →
    ∃ t, boot init font bytes s = .ok t ∧ t.pc = 0x200 ∧ t.sp.val = 0 ∧ (∀ j, t.fb.at j = false) ∧
      (∀ (k : Nat) (h : k < 80), t.readByte (0x050 + k) = font[k]) ∧
      (∀ (k : Nat) (h : k < bytes.length), t.readByte (0x200 + k) = bytes[k]) ∧
      t.v = init.v ∧ t.regI = init.regI ∧ t.dt = init.dt ∧ t.st = init.st ∧ t.keys = s.keys ∧
      ∀ (a : Nat) (h : a < init.image.length), a ≤ 0xFFF →
        a < 0x050 ∨ (0x09F < a ∧ a < 0x200) ∨ 0x200 + bytes.length ≤ a → t.readByte a = init.image[a]

/-! ### Invariants and isolation -/

/-- R35: the invariant at the model's own reset state (its values are the model's choice, log 1, 5 and 6). -/
def Obligations.ResetStateMeetsTheInvariant : Prop := Inv State.reset

/-- The boot sequence establishes the invariant, from any state and for every INIT: R35's bounds on `pc` and the
stack entries in use, and memory in canonical form and inside the address space, a clause that is the model's own
choice (log 1). -/
def Obligations.BootEstablishesTheInvariant : Prop :=
  ∀ (init : Init) (font : Vector Byte 80) (bytes : List Byte) (s t : State),
    boot init font bytes s = .ok t → Inv t

/-- Every step keeps the invariant. By R35 `pc` stays at most 0x10FE and the stack entries in use stay between 0x002
and 0x1000; that memory stays in canonical form and inside the address space is a clause of the model's own choice
(log 1). -/
def Obligations.EveryStepKeepsTheInvariant : Prop :=
  ∀ s t : State, Inv s → step s = .next t → Inv t

/-- Every schedule of events other than resets keeps the invariant, in any order and proportion (D21): R35's bounds
on `pc` and the stack entries in use, and the canonical form of memory, a clause that is the model's own choice
(log 1). -/
def Obligations.EveryScheduleKeepsTheInvariant : Prop :=
  ∀ (es : List Event) (s : State), (∀ e ∈ es, e.isNotReset = true) → Inv s → Inv (runEvents es s).1

/-- What R32 derives: the stack entries that are not in use cannot be observed: whatever they hold, every schedule of events
gives the same outputs and states that differ in such entries only. -/
def Obligations.UnusedStackEntriesAreUnobservable : Prop :=
  ∀ (es : List Event) (s t : State), SameButUnusedStack s t →
    (runEvents es t).2 = (runEvents es s).2 ∧ SameButUnusedStack (runEvents es s).1 (runEvents es t).1
end

