-- ==== Sys2Proof/Laws/Decode.lean ====
section
/-! SUPPORT. The fields of an encoded word, and the words of the formats. -/

namespace Sys2Proof

/-! ### Fields of an encoded word -/

theorem toNat_encodeA (t : Nat) (nnn : Addr12) (ht : t < 16) :
    (encodeA t nnn).toNat = t * 0x1000 + nnn.toNat := by
  have := nnn.isLt
  simp only [encodeA, BitVec.toNat_ofNat]
  omega

theorem toNat_encodeXK (t : Nat) (x : Reg) (kk : Byte) (ht : t < 16) :
    (encodeXK t x kk).toNat = t * 0x1000 + x.val * 0x100 + kk.toNat := by
  have := kk.isLt
  simp only [encodeXK, BitVec.toNat_ofNat]
  omega

theorem toNat_encodeXYN (t : Nat) (x y : Reg) (n : Fin 16) (ht : t < 16) :
    (encodeXYN t x y n).toNat = t * 0x1000 + x.val * 0x100 + y.val * 0x10 + n.val := by
  simp only [encodeXYN, BitVec.toNat_ofNat]
  omega

theorem fieldT_encodeA (t : Nat) (nnn : Addr12) (ht : t < 16) : fieldT (encodeA t nnn) = t := by
  have := nnn.isLt
  simp only [fieldT, toNat_encodeA t nnn ht]
  omega

theorem fieldNnn_encodeA (t : Nat) (nnn : Addr12) (ht : t < 16) : fieldNnn (encodeA t nnn) = nnn := by
  apply BitVec.eq_of_toNat_eq
  have := nnn.isLt
  simp only [fieldNnn, toNat_encodeA t nnn ht, BitVec.toNat_ofNat]
  omega

theorem fieldT_encodeXK (t : Nat) (x : Reg) (kk : Byte) (ht : t < 16) : fieldT (encodeXK t x kk) = t := by
  have := kk.isLt
  simp only [fieldT, toNat_encodeXK t x kk ht]
  omega

theorem fieldX_encodeXK (t : Nat) (x : Reg) (kk : Byte) (ht : t < 16) : fieldX (encodeXK t x kk) = x := by
  apply Fin.ext
  have := kk.isLt
  simp only [fieldX, toNat_encodeXK t x kk ht, Fin.val_ofNat]
  omega

theorem fieldKk_encodeXK (t : Nat) (x : Reg) (kk : Byte) (ht : t < 16) :
    fieldKk (encodeXK t x kk) = kk := by
  apply BitVec.eq_of_toNat_eq
  have := kk.isLt
  simp only [fieldKk, toNat_encodeXK t x kk ht, BitVec.toNat_ofNat]
  omega

theorem fieldT_encodeXYN (t : Nat) (x y : Reg) (n : Fin 16) (ht : t < 16) :
    fieldT (encodeXYN t x y n) = t := by
  simp only [fieldT, toNat_encodeXYN t x y n ht]
  omega

theorem fieldX_encodeXYN (t : Nat) (x y : Reg) (n : Fin 16) (ht : t < 16) :
    fieldX (encodeXYN t x y n) = x := by
  apply Fin.ext
  simp only [fieldX, toNat_encodeXYN t x y n ht, Fin.val_ofNat]
  omega

theorem fieldY_encodeXYN (t : Nat) (x y : Reg) (n : Fin 16) (ht : t < 16) :
    fieldY (encodeXYN t x y n) = y := by
  apply Fin.ext
  simp only [fieldY, toNat_encodeXYN t x y n ht, Fin.val_ofNat]
  omega

theorem fieldN_encodeXYN (t : Nat) (x y : Reg) (n : Fin 16) (ht : t < 16) :
    fieldN (encodeXYN t x y n) = n := by
  apply Fin.ext
  simp only [fieldN, toNat_encodeXYN t x y n ht, Fin.val_ofNat]
  omega

/-! ### Every word from its fields -/

theorem encodeA_fields (op : Word) : encodeA (fieldT op) (fieldNnn op) = op := by
  apply BitVec.eq_of_toNat_eq
  have := op.isLt
  simp only [encodeA, fieldT, fieldNnn, BitVec.toNat_ofNat]
  omega

theorem encodeXK_fields (op : Word) : encodeXK (fieldT op) (fieldX op) (fieldKk op) = op := by
  apply BitVec.eq_of_toNat_eq
  have := op.isLt
  simp only [encodeXK, fieldT, fieldX, fieldKk, BitVec.toNat_ofNat, Fin.val_ofNat]
  omega

theorem encodeXYN_fields (op : Word) : encodeXYN (fieldT op) (fieldX op) (fieldY op) (fieldN op) = op := by
  apply BitVec.eq_of_toNat_eq
  have := op.isLt
  simp only [encodeXYN, fieldT, fieldX, fieldY, fieldN, BitVec.toNat_ofNat, Fin.val_ofNat]
  omega

/-! ### Bytes of a word -/

/-- A word is its two bytes, high byte first (R55). -/
theorem wordOfBytes_bytes (w : Word) : wordOfBytes (highByte w) (lowByte w) = w := by
  apply BitVec.eq_of_toNat_eq
  have := w.isLt
  simp only [wordOfBytes, highByte, lowByte, BitVec.toNat_ofNat]
  omega

theorem toNat_wordOfBytes (hi lo : Byte) : (wordOfBytes hi lo).toNat = hi.toNat * 0x100 + lo.toNat := by
  have := hi.isLt
  have := lo.isLt
  simp only [wordOfBytes, BitVec.toNat_ofNat]
  omega

/-! ### The masks of the opcode map -/

/-- What the mask of the formats A, XK and XYN keeps: the family. -/
theorem and_F000 (op : Word) : op &&& 0xF000#16 = BitVec.ofNat 16 (fieldT op * 0x1000) := by
  have e : op &&& 0xF000#16 = (op >>> 12) <<< 12 := by
    ext i hi
    interval_cases i <;> simp
  rw [e]
  apply BitVec.eq_of_toNat_eq
  have := op.isLt
  simp only [fieldT, BitVec.toNat_shiftLeft, BitVec.toNat_ushiftRight, Nat.shiftLeft_eq,
    Nat.shiftRight_eq_div_pow, BitVec.toNat_ofNat]

/-- What the mask of the format XY keeps: the family and the low nibble. -/
theorem and_F00F (op : Word) :
    op &&& 0xF00F#16 = BitVec.ofNat 16 (fieldT op * 0x1000 + (fieldN op).val) := by
  have e : op &&& 0xF00F#16 = (op &&& 0xF000#16) + (op &&& 0x000F#16) := by
    rw [BitVec.add_eq_or_of_and_eq_zero]
    · ext i hi
      interval_cases i <;> simp
    · ext i hi
      interval_cases i <;> simp
  have low : (op &&& 0x000F#16).toNat = op.toNat % 16 := by
    simpa using Nat.and_two_pow_sub_one_eq_mod op.toNat 4
  rw [e, and_F000]
  apply BitVec.eq_of_toNat_eq
  simp only [BitVec.toNat_add, low, fieldN, BitVec.toNat_ofNat, Fin.val_ofNat]
  omega

/-- What the mask of the format X keeps: the family and the low byte. -/
theorem and_F0FF (op : Word) :
    op &&& 0xF0FF#16 = BitVec.ofNat 16 (fieldT op * 0x1000 + (fieldKk op).toNat) := by
  have e : op &&& 0xF0FF#16 = (op &&& 0xF000#16) + (op &&& 0x00FF#16) := by
    rw [BitVec.add_eq_or_of_and_eq_zero]
    · ext i hi
      interval_cases i <;> simp
    · ext i hi
      interval_cases i <;> simp
  have low : (op &&& 0x00FF#16).toNat = op.toNat % 256 := by
    simpa using Nat.and_two_pow_sub_one_eq_mod op.toNat 8
  rw [e, and_F000]
  apply BitVec.eq_of_toNat_eq
  simp only [BitVec.toNat_add, low, fieldKk, BitVec.toNat_ofNat]
  omega

end Sys2Proof
end

