-- ==== Sys2Proof/Laws/Memory.lean ====
section
/-! SUPPORT. Memory: every operation keeps the canonical form, and the lists of bytes that the operations read
and write. -/

namespace Sys2Proof.Machine

/-! ### The canonical form is kept -/

theorem Memory.wfFrom_mono {lo lo' : Nat} (h : lo' ≤ lo) (m : Memory) (hm : m.wfFrom lo = true) :
    m.wfFrom lo' = true := by
  cases m with
  | nil => rfl
  | cons c m =>
    obtain ⟨k, b⟩ := c
    simp only [Memory.wfFrom, Bool.and_eq_true, decide_eq_true_eq] at hm ⊢
    exact ⟨⟨by omega, hm.1.2⟩, hm.2⟩

theorem Memory.wfFrom_entry_append {lo a : Nat} (b : Byte) (m : Memory) (ha : lo ≤ a)
    (hm : m.wfFrom (a + 1) = true) : (Memory.entry a b ++ m).wfFrom lo = true := by
  unfold Memory.entry
  split
  · exact Memory.wfFrom_mono (by omega) m hm
  · next h =>
    simp only [List.cons_append, List.nil_append, Memory.wfFrom, Bool.and_eq_true, decide_eq_true_eq]
    exact ⟨⟨ha, h⟩, hm⟩

theorem Memory.wfFrom_write {lo a : Nat} (b : Byte) (m : Memory) (ha : lo ≤ a) (hm : m.wfFrom lo = true) :
    (m.write a b).wfFrom lo = true := by
  induction m generalizing lo with
  | nil => simpa [Memory.write] using Memory.wfFrom_entry_append b [] ha rfl
  | cons c m ih =>
    obtain ⟨k, v⟩ := c
    simp only [Memory.wfFrom, Bool.and_eq_true, decide_eq_true_eq] at hm
    obtain ⟨⟨hlo, hv⟩, hm⟩ := hm
    simp only [Memory.write]
    split
    · refine Memory.wfFrom_entry_append b _ ha ?_
      simp only [Memory.wfFrom, Bool.and_eq_true, decide_eq_true_eq]
      exact ⟨⟨by omega, hv⟩, hm⟩
    · split
      · next h => subst h; exact Memory.wfFrom_entry_append b m ha hm
      · simp only [Memory.wfFrom, Bool.and_eq_true, decide_eq_true_eq]
        exact ⟨⟨hlo, hv⟩, ih (by omega) hm⟩

/-- A write keeps the canonical form. -/
theorem Memory.wf_write (m : Memory) (a : Nat) (b : Byte) (hm : m.wf = true) : (m.write a b).wf = true :=
  Memory.wfFrom_write b m (Nat.zero_le a) hm

/-- A sequence of writes keeps the canonical form. -/
theorem Memory.wf_writeBytes (m : Memory) (a : Nat) (bs : List Byte) (hm : m.wf = true) :
    (m.writeBytes a bs).wf = true := by
  induction bs generalizing m a with
  | nil => exact hm
  | cons b bs ih => exact ih _ _ (Memory.wf_write m a b hm)

/-- Memory with nothing listed is in canonical form. -/
theorem Memory.wf_nil : Memory.wf [] = true := rfl

/-! ### Only addresses of `MEM` are listed -/

theorem Memory.mem_write {m : Memory} {a : Nat} {b : Byte} {c : Host.Cell} (h : c ∈ m.write a b) :
    c = (a, b) ∨ c ∈ m := by
  have entry : ∀ {c}, c ∈ Memory.entry a b → c = (a, b) := by
    intro c hc
    unfold Memory.entry at hc
    split at hc
    · simp at hc
    · simpa using hc
  induction m with
  | nil => exact .inl (entry h)
  | cons d m ih =>
    simp only [Memory.write] at h
    split at h
    · exact (List.mem_append.1 h).imp entry id
    · split at h
      · exact (List.mem_append.1 h).imp entry (List.mem_cons_of_mem _)
      · rcases List.mem_cons.1 h with h | h
        · exact .inr (h ▸ List.mem_cons_self)
        · exact (ih h).imp id (List.mem_cons_of_mem _)

/-- A write to an address of `MEM` lists no other kind of address. -/
theorem Memory.bounded_write (m : Memory) (a : Nat) (b : Byte) (ha : a < Config.memSize)
    (hm : m.bounded = true) : (m.write a b).bounded = true := by
  simp only [Memory.bounded, List.all_eq_true, decide_eq_true_eq] at hm ⊢
  intro c hc
  rcases Memory.mem_write hc with rfl | hc
  · exact ha
  · exact hm c hc

/-- A sequence of writes inside `MEM` lists no other kind of address. -/
theorem Memory.bounded_writeBytes (m : Memory) (a : Nat) (bs : List Byte)
    (ha : a + bs.length ≤ Config.memSize) (hm : m.bounded = true) : (m.writeBytes a bs).bounded = true := by
  induction bs generalizing m a with
  | nil => exact hm
  | cons b bs ih =>
    simp only [List.length_cons] at ha
    exact ih _ _ (by omega) (Memory.bounded_write m a b (by omega) hm)

/-! ### Reading several bytes, and the range check -/

@[simp] theorem Memory.length_readBytes (m : Memory) (a n : Nat) : (m.readBytes a n).length = n := by
  induction n generalizing a with
  | zero => rfl
  | succ n ih => simp [Memory.readBytes, ih]

theorem Memory.getElem_readBytes (m : Memory) (a n k : Nat) (h : k < (m.readBytes a n).length) :
    (m.readBytes a n)[k] = m.read (a + k) := by
  induction n generalizing a k with
  | zero => simp at h
  | succ n ih =>
    cases k with
    | zero => rfl
    | succ k =>
      simp only [Memory.readBytes, List.getElem_cons_succ]
      rw [ih]
      congr 1
      omega

/-- The bytes an access of `n` bytes reads, as a map over their offsets. -/
theorem Memory.readBytes_eq_map (m : Memory) (a n : Nat) :
    m.readBytes a n = (List.range n).map fun r => m.read (a + r) := by
  apply List.ext_getElem
  · simp
  · intro k h _
    simp [Memory.getElem_readBytes]

/-- The range check passes exactly when no byte is accessed or the last one is in `MEM`. -/
theorem firstInvalid?_eq_none {base n : Nat} : firstInvalid? base n = none ↔ n = 0 ∨ base + n ≤ 0x1000 := by
  simp [firstInvalid?, or_iff_not_imp_left]

/-- Where the range check fails, it names the first address past `MEM` that the access touches. -/
theorem firstInvalid?_eq_some {base n a : Nat} :
    firstInvalid? base n = some a ↔ (n ≠ 0 ∧ 0x1000 < base + n) ∧ a = max base 0x1000 := by
  by_cases h : n = 0 ∨ base + n ≤ 0x1000
  · simp only [firstInvalid?, Config.memSize, if_pos h, reduceCtorEq, false_iff]
    omega
  · simp only [firstInvalid?, Config.memSize, if_neg h, Option.some.injEq]
    exact ⟨fun e => ⟨by omega, e.symm⟩, fun e => e.2.symm⟩

/-- The whole of the range check, as a choice. -/
theorem firstInvalid?_cases (base n : Nat) :
    (firstInvalid? base n = none ∧ (n = 0 ∨ base + n ≤ 0x1000)) ∨
    (firstInvalid? base n = some (max base 0x1000) ∧ n ≠ 0 ∧ 0x1000 < base + n) := by
  by_cases h : n = 0 ∨ base + n ≤ 0x1000
  · exact .inl ⟨firstInvalid?_eq_none.2 h, h⟩
  · exact .inr ⟨firstInvalid?_eq_some.2 ⟨by omega, rfl⟩, by omega⟩

end Sys2Proof.Machine
end

