-- ==== Sys2Proof/Laws/State.lean ====
section
/-! SUPPORT. One lemma for each field under each update, so that no later proof unfolds a record update. -/

namespace Sys2Proof.Machine

variable (s : State)

@[simp] theorem State.setV_v (x : Reg) (b : Byte) : (s.setV x b).v = s.v.set x.val b := rfl
@[simp] theorem State.setV_regI (x : Reg) (b : Byte) : (s.setV x b).regI = s.regI := rfl
@[simp] theorem State.setV_pc (x : Reg) (b : Byte) : (s.setV x b).pc = s.pc := rfl
@[simp] theorem State.setV_stack (x : Reg) (b : Byte) : (s.setV x b).stack = s.stack := rfl
@[simp] theorem State.setV_sp (x : Reg) (b : Byte) : (s.setV x b).sp = s.sp := rfl
@[simp] theorem State.setV_dt (x : Reg) (b : Byte) : (s.setV x b).dt = s.dt := rfl
@[simp] theorem State.setV_st (x : Reg) (b : Byte) : (s.setV x b).st = s.st := rfl
@[simp] theorem State.setV_mem (x : Reg) (b : Byte) : (s.setV x b).mem = s.mem := rfl
@[simp] theorem State.setV_fb (x : Reg) (b : Byte) : (s.setV x b).fb = s.fb := rfl
@[simp] theorem State.setV_keys (x : Reg) (b : Byte) : (s.setV x b).keys = s.keys := rfl
@[simp] theorem State.setV_draws (x : Reg) (b : Byte) : (s.setV x b).draws = s.draws := rfl
@[simp] theorem State.setV_aliasPolicy (x : Reg) (b : Byte) : (s.setV x b).aliasPolicy = s.aliasPolicy := rfl

@[simp] theorem State.setBlock_v (bs : List Byte) : (s.setBlock bs).v = setRegsFrom s.v 0 bs := rfl
@[simp] theorem State.setBlock_regI (bs : List Byte) : (s.setBlock bs).regI = s.regI := rfl
@[simp] theorem State.setBlock_pc (bs : List Byte) : (s.setBlock bs).pc = s.pc := rfl
@[simp] theorem State.setBlock_stack (bs : List Byte) : (s.setBlock bs).stack = s.stack := rfl
@[simp] theorem State.setBlock_sp (bs : List Byte) : (s.setBlock bs).sp = s.sp := rfl
@[simp] theorem State.setBlock_dt (bs : List Byte) : (s.setBlock bs).dt = s.dt := rfl
@[simp] theorem State.setBlock_st (bs : List Byte) : (s.setBlock bs).st = s.st := rfl
@[simp] theorem State.setBlock_mem (bs : List Byte) : (s.setBlock bs).mem = s.mem := rfl
@[simp] theorem State.setBlock_fb (bs : List Byte) : (s.setBlock bs).fb = s.fb := rfl
@[simp] theorem State.setBlock_keys (bs : List Byte) : (s.setBlock bs).keys = s.keys := rfl
@[simp] theorem State.setBlock_draws (bs : List Byte) : (s.setBlock bs).draws = s.draws := rfl
@[simp] theorem State.setBlock_aliasPolicy (bs : List Byte) : (s.setBlock bs).aliasPolicy = s.aliasPolicy := rfl

@[simp] theorem State.setI_v (w : Word) : (s.setI w).v = s.v := rfl
@[simp] theorem State.setI_regI (w : Word) : (s.setI w).regI = w := rfl
@[simp] theorem State.setI_pc (w : Word) : (s.setI w).pc = s.pc := rfl
@[simp] theorem State.setI_stack (w : Word) : (s.setI w).stack = s.stack := rfl
@[simp] theorem State.setI_sp (w : Word) : (s.setI w).sp = s.sp := rfl
@[simp] theorem State.setI_dt (w : Word) : (s.setI w).dt = s.dt := rfl
@[simp] theorem State.setI_st (w : Word) : (s.setI w).st = s.st := rfl
@[simp] theorem State.setI_mem (w : Word) : (s.setI w).mem = s.mem := rfl
@[simp] theorem State.setI_fb (w : Word) : (s.setI w).fb = s.fb := rfl
@[simp] theorem State.setI_keys (w : Word) : (s.setI w).keys = s.keys := rfl
@[simp] theorem State.setI_draws (w : Word) : (s.setI w).draws = s.draws := rfl
@[simp] theorem State.setI_aliasPolicy (w : Word) : (s.setI w).aliasPolicy = s.aliasPolicy := rfl

@[simp] theorem State.setDt_v (b : Byte) : (s.setDt b).v = s.v := rfl
@[simp] theorem State.setDt_regI (b : Byte) : (s.setDt b).regI = s.regI := rfl
@[simp] theorem State.setDt_pc (b : Byte) : (s.setDt b).pc = s.pc := rfl
@[simp] theorem State.setDt_stack (b : Byte) : (s.setDt b).stack = s.stack := rfl
@[simp] theorem State.setDt_sp (b : Byte) : (s.setDt b).sp = s.sp := rfl
@[simp] theorem State.setDt_dt (b : Byte) : (s.setDt b).dt = b := rfl
@[simp] theorem State.setDt_st (b : Byte) : (s.setDt b).st = s.st := rfl
@[simp] theorem State.setDt_mem (b : Byte) : (s.setDt b).mem = s.mem := rfl
@[simp] theorem State.setDt_fb (b : Byte) : (s.setDt b).fb = s.fb := rfl
@[simp] theorem State.setDt_keys (b : Byte) : (s.setDt b).keys = s.keys := rfl
@[simp] theorem State.setDt_draws (b : Byte) : (s.setDt b).draws = s.draws := rfl
@[simp] theorem State.setDt_aliasPolicy (b : Byte) : (s.setDt b).aliasPolicy = s.aliasPolicy := rfl

@[simp] theorem State.setSt_v (b : Byte) : (s.setSt b).v = s.v := rfl
@[simp] theorem State.setSt_regI (b : Byte) : (s.setSt b).regI = s.regI := rfl
@[simp] theorem State.setSt_pc (b : Byte) : (s.setSt b).pc = s.pc := rfl
@[simp] theorem State.setSt_stack (b : Byte) : (s.setSt b).stack = s.stack := rfl
@[simp] theorem State.setSt_sp (b : Byte) : (s.setSt b).sp = s.sp := rfl
@[simp] theorem State.setSt_dt (b : Byte) : (s.setSt b).dt = s.dt := rfl
@[simp] theorem State.setSt_st (b : Byte) : (s.setSt b).st = b := rfl
@[simp] theorem State.setSt_mem (b : Byte) : (s.setSt b).mem = s.mem := rfl
@[simp] theorem State.setSt_fb (b : Byte) : (s.setSt b).fb = s.fb := rfl
@[simp] theorem State.setSt_keys (b : Byte) : (s.setSt b).keys = s.keys := rfl
@[simp] theorem State.setSt_draws (b : Byte) : (s.setSt b).draws = s.draws := rfl
@[simp] theorem State.setSt_aliasPolicy (b : Byte) : (s.setSt b).aliasPolicy = s.aliasPolicy := rfl

@[simp] theorem State.consumeDraw_v : (s.consumeDraw).v = s.v := rfl
@[simp] theorem State.consumeDraw_regI : (s.consumeDraw).regI = s.regI := rfl
@[simp] theorem State.consumeDraw_pc : (s.consumeDraw).pc = s.pc := rfl
@[simp] theorem State.consumeDraw_stack : (s.consumeDraw).stack = s.stack := rfl
@[simp] theorem State.consumeDraw_sp : (s.consumeDraw).sp = s.sp := rfl
@[simp] theorem State.consumeDraw_dt : (s.consumeDraw).dt = s.dt := rfl
@[simp] theorem State.consumeDraw_st : (s.consumeDraw).st = s.st := rfl
@[simp] theorem State.consumeDraw_mem : (s.consumeDraw).mem = s.mem := rfl
@[simp] theorem State.consumeDraw_fb : (s.consumeDraw).fb = s.fb := rfl
@[simp] theorem State.consumeDraw_keys : (s.consumeDraw).keys = s.keys := rfl
@[simp] theorem State.consumeDraw_draws : (s.consumeDraw).draws = s.draws + 1 := rfl
@[simp] theorem State.consumeDraw_aliasPolicy : (s.consumeDraw).aliasPolicy = s.aliasPolicy := rfl

@[simp] theorem State.setPc_v (w : Word) : (s.setPc w).v = s.v := rfl
@[simp] theorem State.setPc_regI (w : Word) : (s.setPc w).regI = s.regI := rfl
@[simp] theorem State.setPc_pc (w : Word) : (s.setPc w).pc = w := rfl
@[simp] theorem State.setPc_stack (w : Word) : (s.setPc w).stack = s.stack := rfl
@[simp] theorem State.setPc_sp (w : Word) : (s.setPc w).sp = s.sp := rfl
@[simp] theorem State.setPc_dt (w : Word) : (s.setPc w).dt = s.dt := rfl
@[simp] theorem State.setPc_st (w : Word) : (s.setPc w).st = s.st := rfl
@[simp] theorem State.setPc_mem (w : Word) : (s.setPc w).mem = s.mem := rfl
@[simp] theorem State.setPc_fb (w : Word) : (s.setPc w).fb = s.fb := rfl
@[simp] theorem State.setPc_keys (w : Word) : (s.setPc w).keys = s.keys := rfl
@[simp] theorem State.setPc_draws (w : Word) : (s.setPc w).draws = s.draws := rfl
@[simp] theorem State.setPc_aliasPolicy (w : Word) : (s.setPc w).aliasPolicy = s.aliasPolicy := rfl

@[simp] theorem State.advancePc_v : (s.advancePc).v = s.v := rfl
@[simp] theorem State.advancePc_regI : (s.advancePc).regI = s.regI := rfl
@[simp] theorem State.advancePc_pc : (s.advancePc).pc = s.pc + 2 := rfl
@[simp] theorem State.advancePc_stack : (s.advancePc).stack = s.stack := rfl
@[simp] theorem State.advancePc_sp : (s.advancePc).sp = s.sp := rfl
@[simp] theorem State.advancePc_dt : (s.advancePc).dt = s.dt := rfl
@[simp] theorem State.advancePc_st : (s.advancePc).st = s.st := rfl
@[simp] theorem State.advancePc_mem : (s.advancePc).mem = s.mem := rfl
@[simp] theorem State.advancePc_fb : (s.advancePc).fb = s.fb := rfl
@[simp] theorem State.advancePc_keys : (s.advancePc).keys = s.keys := rfl
@[simp] theorem State.advancePc_draws : (s.advancePc).draws = s.draws := rfl
@[simp] theorem State.advancePc_aliasPolicy : (s.advancePc).aliasPolicy = s.aliasPolicy := rfl

@[simp] theorem State.rewindPc_v : (s.rewindPc).v = s.v := rfl
@[simp] theorem State.rewindPc_regI : (s.rewindPc).regI = s.regI := rfl
@[simp] theorem State.rewindPc_pc : (s.rewindPc).pc = s.pc - 2 := rfl
@[simp] theorem State.rewindPc_stack : (s.rewindPc).stack = s.stack := rfl
@[simp] theorem State.rewindPc_sp : (s.rewindPc).sp = s.sp := rfl
@[simp] theorem State.rewindPc_dt : (s.rewindPc).dt = s.dt := rfl
@[simp] theorem State.rewindPc_st : (s.rewindPc).st = s.st := rfl
@[simp] theorem State.rewindPc_mem : (s.rewindPc).mem = s.mem := rfl
@[simp] theorem State.rewindPc_fb : (s.rewindPc).fb = s.fb := rfl
@[simp] theorem State.rewindPc_keys : (s.rewindPc).keys = s.keys := rfl
@[simp] theorem State.rewindPc_draws : (s.rewindPc).draws = s.draws := rfl
@[simp] theorem State.rewindPc_aliasPolicy : (s.rewindPc).aliasPolicy = s.aliasPolicy := rfl

@[simp] theorem State.storeBytes_v (a : Nat) (bs : List Byte) : (s.storeBytes a bs).v = s.v := rfl
@[simp] theorem State.storeBytes_regI (a : Nat) (bs : List Byte) : (s.storeBytes a bs).regI = s.regI := rfl
@[simp] theorem State.storeBytes_pc (a : Nat) (bs : List Byte) : (s.storeBytes a bs).pc = s.pc := rfl
@[simp] theorem State.storeBytes_stack (a : Nat) (bs : List Byte) : (s.storeBytes a bs).stack = s.stack := rfl
@[simp] theorem State.storeBytes_sp (a : Nat) (bs : List Byte) : (s.storeBytes a bs).sp = s.sp := rfl
@[simp] theorem State.storeBytes_dt (a : Nat) (bs : List Byte) : (s.storeBytes a bs).dt = s.dt := rfl
@[simp] theorem State.storeBytes_st (a : Nat) (bs : List Byte) : (s.storeBytes a bs).st = s.st := rfl
@[simp] theorem State.storeBytes_mem (a : Nat) (bs : List Byte) : (s.storeBytes a bs).mem = s.mem.writeBytes a bs := rfl
@[simp] theorem State.storeBytes_fb (a : Nat) (bs : List Byte) : (s.storeBytes a bs).fb = s.fb := rfl
@[simp] theorem State.storeBytes_keys (a : Nat) (bs : List Byte) : (s.storeBytes a bs).keys = s.keys := rfl
@[simp] theorem State.storeBytes_draws (a : Nat) (bs : List Byte) : (s.storeBytes a bs).draws = s.draws := rfl
@[simp] theorem State.storeBytes_aliasPolicy (a : Nat) (bs : List Byte) : (s.storeBytes a bs).aliasPolicy = s.aliasPolicy := rfl

@[simp] theorem State.setFb_v (fb : Framebuffer) : (s.setFb fb).v = s.v := rfl
@[simp] theorem State.setFb_regI (fb : Framebuffer) : (s.setFb fb).regI = s.regI := rfl
@[simp] theorem State.setFb_pc (fb : Framebuffer) : (s.setFb fb).pc = s.pc := rfl
@[simp] theorem State.setFb_stack (fb : Framebuffer) : (s.setFb fb).stack = s.stack := rfl
@[simp] theorem State.setFb_sp (fb : Framebuffer) : (s.setFb fb).sp = s.sp := rfl
@[simp] theorem State.setFb_dt (fb : Framebuffer) : (s.setFb fb).dt = s.dt := rfl
@[simp] theorem State.setFb_st (fb : Framebuffer) : (s.setFb fb).st = s.st := rfl
@[simp] theorem State.setFb_mem (fb : Framebuffer) : (s.setFb fb).mem = s.mem := rfl
@[simp] theorem State.setFb_fb (fb : Framebuffer) : (s.setFb fb).fb = fb := rfl
@[simp] theorem State.setFb_keys (fb : Framebuffer) : (s.setFb fb).keys = s.keys := rfl
@[simp] theorem State.setFb_draws (fb : Framebuffer) : (s.setFb fb).draws = s.draws := rfl
@[simp] theorem State.setFb_aliasPolicy (fb : Framebuffer) : (s.setFb fb).aliasPolicy = s.aliasPolicy := rfl

@[simp] theorem State.skipIf_v (c : Bool) : (s.skipIf c).v = s.v := by cases c <;> rfl
@[simp] theorem State.skipIf_regI (c : Bool) : (s.skipIf c).regI = s.regI := by cases c <;> rfl
theorem State.skipIf_pc (c : Bool) : (s.skipIf c).pc = if c then s.pc + 2 else s.pc := by
  cases c <;> rfl
@[simp] theorem State.skipIf_stack (c : Bool) : (s.skipIf c).stack = s.stack := by cases c <;> rfl
@[simp] theorem State.skipIf_sp (c : Bool) : (s.skipIf c).sp = s.sp := by cases c <;> rfl
@[simp] theorem State.skipIf_dt (c : Bool) : (s.skipIf c).dt = s.dt := by cases c <;> rfl
@[simp] theorem State.skipIf_st (c : Bool) : (s.skipIf c).st = s.st := by cases c <;> rfl
@[simp] theorem State.skipIf_mem (c : Bool) : (s.skipIf c).mem = s.mem := by cases c <;> rfl
@[simp] theorem State.skipIf_fb (c : Bool) : (s.skipIf c).fb = s.fb := by cases c <;> rfl
@[simp] theorem State.skipIf_keys (c : Bool) : (s.skipIf c).keys = s.keys := by cases c <;> rfl
@[simp] theorem State.skipIf_draws (c : Bool) : (s.skipIf c).draws = s.draws := by cases c <;> rfl
@[simp] theorem State.skipIf_aliasPolicy (c : Bool) : (s.skipIf c).aliasPolicy = s.aliasPolicy := by cases c <;> rfl

@[simp] theorem keyWrite_v (k : Key) (b : Bool) : (keyWrite k b s).v = s.v := rfl
@[simp] theorem keyWrite_regI (k : Key) (b : Bool) : (keyWrite k b s).regI = s.regI := rfl
@[simp] theorem keyWrite_pc (k : Key) (b : Bool) : (keyWrite k b s).pc = s.pc := rfl
@[simp] theorem keyWrite_stack (k : Key) (b : Bool) : (keyWrite k b s).stack = s.stack := rfl
@[simp] theorem keyWrite_sp (k : Key) (b : Bool) : (keyWrite k b s).sp = s.sp := rfl
@[simp] theorem keyWrite_dt (k : Key) (b : Bool) : (keyWrite k b s).dt = s.dt := rfl
@[simp] theorem keyWrite_st (k : Key) (b : Bool) : (keyWrite k b s).st = s.st := rfl
@[simp] theorem keyWrite_mem (k : Key) (b : Bool) : (keyWrite k b s).mem = s.mem := rfl
@[simp] theorem keyWrite_fb (k : Key) (b : Bool) : (keyWrite k b s).fb = s.fb := rfl
@[simp] theorem keyWrite_keys (k : Key) (b : Bool) : (keyWrite k b s).keys = s.keys.set k.val b := rfl
@[simp] theorem keyWrite_draws (k : Key) (b : Bool) : (keyWrite k b s).draws = s.draws := rfl
@[simp] theorem keyWrite_aliasPolicy (k : Key) (b : Bool) : (keyWrite k b s).aliasPolicy = s.aliasPolicy := rfl

@[simp] theorem tick_v : (tick s).1.v = s.v := rfl
@[simp] theorem tick_regI : (tick s).1.regI = s.regI := rfl
@[simp] theorem tick_pc : (tick s).1.pc = s.pc := rfl
@[simp] theorem tick_stack : (tick s).1.stack = s.stack := rfl
@[simp] theorem tick_sp : (tick s).1.sp = s.sp := rfl
@[simp] theorem tick_dt : (tick s).1.dt = countDown s.dt := rfl
@[simp] theorem tick_st : (tick s).1.st = countDown s.st := rfl
@[simp] theorem tick_mem : (tick s).1.mem = s.mem := rfl
@[simp] theorem tick_fb : (tick s).1.fb = s.fb := rfl
@[simp] theorem tick_keys : (tick s).1.keys = s.keys := rfl
@[simp] theorem tick_draws : (tick s).1.draws = s.draws := rfl
@[simp] theorem tick_aliasPolicy : (tick s).1.aliasPolicy = s.aliasPolicy := rfl

@[simp] theorem loadFont_v (font : Vector Byte 80) : (loadFont font s).v = s.v := rfl
@[simp] theorem loadFont_regI (font : Vector Byte 80) : (loadFont font s).regI = s.regI := rfl
@[simp] theorem loadFont_pc (font : Vector Byte 80) : (loadFont font s).pc = s.pc := rfl
@[simp] theorem loadFont_stack (font : Vector Byte 80) : (loadFont font s).stack = s.stack := rfl
@[simp] theorem loadFont_sp (font : Vector Byte 80) : (loadFont font s).sp = s.sp := rfl
@[simp] theorem loadFont_dt (font : Vector Byte 80) : (loadFont font s).dt = s.dt := rfl
@[simp] theorem loadFont_st (font : Vector Byte 80) : (loadFont font s).st = s.st := rfl
@[simp] theorem loadFont_mem (font : Vector Byte 80) : (loadFont font s).mem = s.mem.writeBytes Config.fontBase font.toList := rfl
@[simp] theorem loadFont_fb (font : Vector Byte 80) : (loadFont font s).fb = s.fb := rfl
@[simp] theorem loadFont_keys (font : Vector Byte 80) : (loadFont font s).keys = s.keys := rfl
@[simp] theorem loadFont_draws (font : Vector Byte 80) : (loadFont font s).draws = s.draws := rfl
@[simp] theorem loadFont_aliasPolicy (font : Vector Byte 80) : (loadFont font s).aliasPolicy = s.aliasPolicy := rfl

/-! ### The register accessors under each update -/

@[simp] theorem State.getV_setV_same (x : Reg) (b : Byte) : (s.setV x b).getV x = b := by
  simp [State.getV, State.setV]

theorem State.getV_setV_ne (x r : Reg) (b : Byte) (h : r ≠ x) : (s.setV x b).getV r = s.getV r := by
  have : x.val ≠ r.val := fun e => h (Fin.ext e.symm)
  simp [State.getV, State.setV, this]

theorem State.getV_setV (x r : Reg) (b : Byte) :
    (s.setV x b).getV r = if r = x then b else s.getV r := by
  by_cases h : r = x
  · subst h; simp
  · simp [h, State.getV_setV_ne]

/-- A register reads the same in two states whose register files are the same. -/
theorem State.getV_congr (t : State) (h : t.v = s.v) (r : Reg) : t.getV r = s.getV r := by
  simp [State.getV, h]

@[simp] theorem State.getV_setI (w : Word) (r : Reg) : (s.setI w).getV r = s.getV r := rfl
@[simp] theorem State.getV_setDt (b : Byte) (r : Reg) : (s.setDt b).getV r = s.getV r := rfl
@[simp] theorem State.getV_setSt (b : Byte) (r : Reg) : (s.setSt b).getV r = s.getV r := rfl
@[simp] theorem State.getV_consumeDraw (r : Reg) : (s.consumeDraw).getV r = s.getV r := rfl
@[simp] theorem State.getV_setPc (w : Word) (r : Reg) : (s.setPc w).getV r = s.getV r := rfl
@[simp] theorem State.getV_advancePc (r : Reg) : (s.advancePc).getV r = s.getV r := rfl
@[simp] theorem State.getV_rewindPc (r : Reg) : (s.rewindPc).getV r = s.getV r := rfl
@[simp] theorem State.getV_storeBytes (a : Nat) (bs : List Byte) (r : Reg) : (s.storeBytes a bs).getV r = s.getV r := rfl
@[simp] theorem State.getV_setFb (fb : Framebuffer) (r : Reg) : (s.setFb fb).getV r = s.getV r := rfl
@[simp] theorem State.getV_skipIf (c : Bool) (r : Reg) : (s.skipIf c).getV r = s.getV r := by
  cases c <;> rfl

@[simp] theorem getV_keyWrite (k : Key) (b : Bool) (r : Reg) : (keyWrite k b s).getV r = s.getV r := rfl
@[simp] theorem getV_tick (r : Reg) : (tick s).1.getV r = s.getV r := rfl
@[simp] theorem getV_loadFont (font : Vector Byte 80) (r : Reg) : (loadFont font s).getV r = s.getV r := rfl

/-- Two register files are the same when every register reads the same. -/
theorem State.v_eq_of_getV (t : State) (h : ∀ r, t.getV r = s.getV r) : t.v = s.v :=
  Vector.ext fun i hi => h ⟨i, hi⟩

end Sys2Proof.Machine
end

