-- ==== Sys2Proof/Laws/Ops.lean ====
section
/-! SUPPORT. One lemma for each shared operation that says once everything it can do. -/

namespace Sys2Proof.Machine

/-! ### Register blocks -/

/-- Writing a block changes exactly the registers it reaches. -/
theorem getElem_setRegsFrom (v : RegFile) (k : Nat) (bs : List Byte) (j : Nat) (hj : j < 16) :
    (setRegsFrom v k bs)[j] =
      if h : k ≤ j ∧ j - k < bs.length then bs[j - k] else v[j] := by
  induction bs generalizing v k with
  | nil => simp [setRegsFrom]
  | cons b bs ih =>
    simp only [setRegsFrom, ih, Vector.getElem_setIfInBounds, List.length_cons]
    rcases Nat.lt_trichotomy k j with hlt | heq | hgt
    · obtain ⟨d, rfl⟩ : ∃ d, j = k + 1 + d := ⟨j - (k + 1), by omega⟩
      have e : k + 1 + d - k = d + 1 := by omega
      have e' : k + 1 + d - (k + 1) = d := by omega
      simp [e, e', show k ≤ k + 1 + d by omega, show k ≠ k + 1 + d by omega]
    · subst heq; simp
    · simp [show ¬k < j by omega, show ¬k ≤ j by omega, show k ≠ j by omega]

/-- A register after a block of consecutive registers is written from V0 up. -/
theorem State.getV_setBlock (s : State) (bs : List Byte) (r : Reg) :
    (s.setBlock bs).getV r = if h : r.val < bs.length then bs[r.val] else s.getV r := by
  simp only [State.getV, State.setBlock, getElem_setRegsFrom, Nat.zero_le, true_and, Nat.sub_zero]

@[simp] theorem State.length_block (s : State) (x : Reg) : (s.block x).length = x.val + 1 := by
  simp [State.block]

/-- The bytes of a block are the registers V0, V1, … in order. -/
theorem State.getElem_block (s : State) (x : Reg) (k : Nat) (h : k < (s.block x).length) (hk : k < 16) :
    (s.block x)[k] = s.getV ⟨k, hk⟩ := by
  simp [State.block, State.getV]

/-! ### The call stack -/

/-- A push succeeds exactly when fewer than 16 entries are in use, and changes only the new entry and `SP`. -/
theorem State.push?_cases (s : State) (ret : Word) :
    (s.sp.val = 16 ∧ s.push? ret = none) ∨
    ∃ h : s.sp.val < 16, s.push? ret =
      some { s with stack := s.stack.set s.sp.val ret, sp := ⟨s.sp.val + 1, by omega⟩ } := by
  by_cases h : s.sp.val < 16
  · exact .inr ⟨h, by simp [State.push?, h]⟩
  · exact .inl ⟨by omega, by simp [State.push?, h]⟩

/-- A pop succeeds exactly when an entry is in use, and changes only `SP`. -/
theorem State.pop?_cases (s : State) :
    (s.sp.val = 0 ∧ s.pop? = none) ∨
    ∃ h : 0 < s.sp.val, s.pop? =
      some (s.stack[s.sp.val - 1], { s with sp := ⟨s.sp.val - 1, by omega⟩ }) := by
  by_cases h : 0 < s.sp.val
  · exact .inr ⟨h, by simp [State.pop?, h]⟩
  · exact .inl ⟨by omega, by simp [State.pop?, h]⟩

/-! ### The flag-writing ALU instructions -/

/-- Everything a flag-writing ALU instruction can do (R126, R132). -/
theorem writeAlu_cases (i : Instr) (isAlias : Bool) (x y : Reg) (f : Byte → Byte → Byte) (flag : Bool)
    (s : State) :
    (isAlias = true ∧ s.aliasPolicy = .refuse ∧
      writeAlu i isAlias x y f flag s = .fault (.unspecifiedAlias (s.pc - 2) (encode i))) ∨
    ((isAlias = false ∨ s.aliasPolicy = .flagLast) ∧
      writeAlu i isAlias x y f flag s = .next (s.writeFlagLast x (f (s.getV x) (s.getV y)) flag)) ∨
    (isAlias = true ∧ s.aliasPolicy = .resultLast ∧
      writeAlu i isAlias x y f flag s = .next (s.writeResultLast x (f (s.getV x) (s.getV y)) flag)) ∨
    (isAlias = true ∧ s.aliasPolicy = .sequential ∧
      writeAlu i isAlias x y f flag s = .next (s.writeSequential x y f flag)) := by
  cases isAlias
  · simp [writeAlu]
  · cases h : s.aliasPolicy <;> simp [writeAlu, h, raise, State.pc0]

/-! ### Pixels -/

/-- Toggling a pixel changes that pixel and no other. -/
theorem Framebuffer.pixel_toggle (fb : Framebuffer) (px qx : Fin 64) (py qy : Fin 32) :
    (fb.toggle px py).pixel qx qy = (fb.pixel qx qy ^^ decide (qx = px ∧ qy = py)) := by
  simp only [Framebuffer.toggle, Framebuffer.pixel, Vector.getElem_set]
  by_cases hy : qy = py
  · subst hy
    by_cases hx : qx = px
    · subst hx; simp
    · have hne : qx.val ≠ px.val := fun e => hx (Fin.ext e)
      simp [hx, hne]
  · have hne : py.val ≠ qy.val := fun e => hy (Fin.ext e.symm)
    simp [hy, hne]

/-- Two framebuffers are the same when every pixel is. -/
theorem Framebuffer.ext_pixel (fb fb' : Framebuffer) (h : ∀ px py, fb.pixel px py = fb'.pixel px py) :
    fb = fb' := by
  apply Vector.ext
  intro i hi
  apply BitVec.eq_of_getLsbD_eq
  intro k hk
  exact h ⟨k, hk⟩ ⟨i, hi⟩

/-! ### Keys -/

/-- A register value is a key code exactly when it is below 16. -/
theorem keyIndex?_cases (k : Byte) :
    (15 < k.toNat ∧ keyIndex? k = none) ∨ ∃ h : k.toNat < 16, keyIndex? k = some ⟨k.toNat, h⟩ := by
  by_cases h : k.toNat < 16
  · exact .inr ⟨h, by simp [keyIndex?, h]⟩
  · exact .inl ⟨by omega, by simp [keyIndex?, h]⟩

/-- The lowest key is down and no smaller one is; there is none exactly when every key is up (R188). -/
theorem State.lowestKey?_cases (s : State) :
    (s.lowestKey? = none ∧ ∀ k, s.keyDown k = false) ∨
    ∃ k, s.lowestKey? = some k ∧ s.keyDown k = true ∧ ∀ j, j < k → s.keyDown j = false := by
  cases h : s.lowestKey? with
  | none =>
    refine .inl ⟨rfl, fun k => ?_⟩
    have := List.find?_eq_none.1 h k (List.mem_finRange k)
    simpa using this
  | some k =>
    refine .inr ⟨k, rfl, ?_, fun j hj => ?_⟩
    · simpa using List.find?_some h
    · obtain ⟨_, i, hi, hik, hlt⟩ := List.find?_eq_some_iff_getElem.1 h
      have e : i = k.val := by simpa using congrArg Fin.val hik
      have := hlt j.val (e ▸ hj)
      simpa using this

end Sys2Proof.Machine
end

