-- ==== Sys2Proof/Laws/PerInstr.lean ====
section
/-! SUPPORT. Statements about every instruction as syntax, one lemma per constructor. -/

namespace Sys2Proof.Laws.EncodesItsRow

/-- The word of an instruction is of the instruction's own row of the opcode map, and that row is in the map
(R75, R76). -/
def Statement (i : Instr) : Prop := i.row ∈ opcodeRows ∧ i.wellFormed = true

theorem formatA (i : Instr) (t : Nat) (nnn : Addr12) (ht : t < 16)
    (hrow : ⟨0xF000, BitVec.ofNat 16 (t * 0x1000)⟩ ∈ opcodeRows)
    (hm : i.row = ⟨0xF000, BitVec.ofNat 16 (t * 0x1000)⟩) (he : encode i = encodeA t nnn) : Statement i := by
  refine ⟨hm ▸ hrow, ?_⟩
  simp [Instr.wellFormed, OpcodeRow.admits, hm, he, and_F000, fieldT_encodeA t nnn ht]

theorem formatXK (i : Instr) (t : Nat) (x : Reg) (kk : Byte) (ht : t < 16)
    (hrow : ⟨0xF000, BitVec.ofNat 16 (t * 0x1000)⟩ ∈ opcodeRows)
    (hm : i.row = ⟨0xF000, BitVec.ofNat 16 (t * 0x1000)⟩) (he : encode i = encodeXK t x kk) :
    Statement i := by
  refine ⟨hm ▸ hrow, ?_⟩
  simp [Instr.wellFormed, OpcodeRow.admits, hm, he, and_F000, fieldT_encodeXK t x kk ht]

theorem formatXYN (i : Instr) (t : Nat) (x y : Reg) (n : Fin 16) (ht : t < 16)
    (hrow : ⟨0xF000, BitVec.ofNat 16 (t * 0x1000)⟩ ∈ opcodeRows)
    (hm : i.row = ⟨0xF000, BitVec.ofNat 16 (t * 0x1000)⟩) (he : encode i = encodeXYN t x y n) :
    Statement i := by
  refine ⟨hm ▸ hrow, ?_⟩
  simp [Instr.wellFormed, OpcodeRow.admits, hm, he, and_F000, fieldT_encodeXYN t x y n ht]

theorem formatXY (i : Instr) (t : Nat) (x y : Reg) (n : Fin 16) (ht : t < 16)
    (hrow : ⟨0xF00F, BitVec.ofNat 16 (t * 0x1000 + n.val)⟩ ∈ opcodeRows)
    (hm : i.row = ⟨0xF00F, BitVec.ofNat 16 (t * 0x1000 + n.val)⟩) (he : encode i = encodeXYN t x y n) :
    Statement i := by
  refine ⟨hm ▸ hrow, ?_⟩
  simp [Instr.wellFormed, OpcodeRow.admits, hm, he, and_F00F, fieldT_encodeXYN t x y n ht,
    fieldN_encodeXYN t x y n ht]

theorem formatX (i : Instr) (t : Nat) (x : Reg) (kk : Byte) (ht : t < 16)
    (hrow : ⟨0xF0FF, BitVec.ofNat 16 (t * 0x1000 + kk.toNat)⟩ ∈ opcodeRows)
    (hm : i.row = ⟨0xF0FF, BitVec.ofNat 16 (t * 0x1000 + kk.toNat)⟩) (he : encode i = encodeXK t x kk) :
    Statement i := by
  refine ⟨hm ▸ hrow, ?_⟩
  simp [Instr.wellFormed, OpcodeRow.admits, hm, he, and_F0FF, fieldT_encodeXK t x kk ht,
    fieldKk_encodeXK t x kk ht]

theorem cls : Statement .cls := ⟨by decide, by decide⟩
theorem ret : Statement .ret := ⟨by decide, by decide⟩
theorem jpNnn (nnn : Addr12) : Statement (.jpNnn nnn) :=
  formatA _ 0x1 nnn (by decide) (by decide) rfl rfl
theorem callNnn (nnn : Addr12) : Statement (.callNnn nnn) :=
  formatA _ 0x2 nnn (by decide) (by decide) rfl rfl
theorem seVxKk (x : Reg) (kk : Byte) : Statement (.seVxKk x kk) :=
  formatXK _ 0x3 x kk (by decide) (by decide) rfl rfl
theorem sneVxKk (x : Reg) (kk : Byte) : Statement (.sneVxKk x kk) :=
  formatXK _ 0x4 x kk (by decide) (by decide) rfl rfl
theorem seVxVy (x y : Reg) : Statement (.seVxVy x y) :=
  formatXY _ 0x5 x y 0x0 (by decide) (by decide) rfl rfl
theorem sneVxVy (x y : Reg) : Statement (.sneVxVy x y) :=
  formatXY _ 0x9 x y 0x0 (by decide) (by decide) rfl rfl
theorem ldVxKk (x : Reg) (kk : Byte) : Statement (.ldVxKk x kk) :=
  formatXK _ 0x6 x kk (by decide) (by decide) rfl rfl
theorem addVxKk (x : Reg) (kk : Byte) : Statement (.addVxKk x kk) :=
  formatXK _ 0x7 x kk (by decide) (by decide) rfl rfl
theorem ldVxVy (x y : Reg) : Statement (.ldVxVy x y) :=
  formatXY _ 0x8 x y 0x0 (by decide) (by decide) rfl rfl
theorem orVxVy (x y : Reg) : Statement (.orVxVy x y) :=
  formatXY _ 0x8 x y 0x1 (by decide) (by decide) rfl rfl
theorem andVxVy (x y : Reg) : Statement (.andVxVy x y) :=
  formatXY _ 0x8 x y 0x2 (by decide) (by decide) rfl rfl
theorem xorVxVy (x y : Reg) : Statement (.xorVxVy x y) :=
  formatXY _ 0x8 x y 0x3 (by decide) (by decide) rfl rfl
theorem addVxVy (x y : Reg) : Statement (.addVxVy x y) :=
  formatXY _ 0x8 x y 0x4 (by decide) (by decide) rfl rfl
theorem subVxVy (x y : Reg) : Statement (.subVxVy x y) :=
  formatXY _ 0x8 x y 0x5 (by decide) (by decide) rfl rfl
theorem shrVx (x y : Reg) : Statement (.shrVx x y) :=
  formatXY _ 0x8 x y 0x6 (by decide) (by decide) rfl rfl
theorem subnVxVy (x y : Reg) : Statement (.subnVxVy x y) :=
  formatXY _ 0x8 x y 0x7 (by decide) (by decide) rfl rfl
theorem shlVx (x y : Reg) : Statement (.shlVx x y) :=
  formatXY _ 0x8 x y 0xE (by decide) (by decide) rfl rfl
theorem ldINnn (nnn : Addr12) : Statement (.ldINnn nnn) :=
  formatA _ 0xA nnn (by decide) (by decide) rfl rfl
theorem jpV0Nnn (nnn : Addr12) : Statement (.jpV0Nnn nnn) :=
  formatA _ 0xB nnn (by decide) (by decide) rfl rfl
theorem rndVxKk (x : Reg) (kk : Byte) : Statement (.rndVxKk x kk) :=
  formatXK _ 0xC x kk (by decide) (by decide) rfl rfl
theorem drwVxVyN (x y : Reg) (n : Fin 16) : Statement (.drwVxVyN x y n) :=
  formatXYN _ 0xD x y n (by decide) (by decide) rfl rfl
theorem skpVx (x : Reg) : Statement (.skpVx x) :=
  formatX _ 0xE x 0x9E (by decide) (by decide) rfl rfl
theorem sknpVx (x : Reg) : Statement (.sknpVx x) :=
  formatX _ 0xE x 0xA1 (by decide) (by decide) rfl rfl
theorem ldVxDt (x : Reg) : Statement (.ldVxDt x) :=
  formatX _ 0xF x 0x07 (by decide) (by decide) rfl rfl
theorem ldVxK (x : Reg) : Statement (.ldVxK x) :=
  formatX _ 0xF x 0x0A (by decide) (by decide) rfl rfl
theorem ldDtVx (x : Reg) : Statement (.ldDtVx x) :=
  formatX _ 0xF x 0x15 (by decide) (by decide) rfl rfl
theorem ldStVx (x : Reg) : Statement (.ldStVx x) :=
  formatX _ 0xF x 0x18 (by decide) (by decide) rfl rfl
theorem addIVx (x : Reg) : Statement (.addIVx x) :=
  formatX _ 0xF x 0x1E (by decide) (by decide) rfl rfl
theorem ldFVx (x : Reg) : Statement (.ldFVx x) :=
  formatX _ 0xF x 0x29 (by decide) (by decide) rfl rfl
theorem ldBVx (x : Reg) : Statement (.ldBVx x) :=
  formatX _ 0xF x 0x33 (by decide) (by decide) rfl rfl
theorem ldMemVx (x : Reg) : Statement (.ldMemVx x) :=
  formatX _ 0xF x 0x55 (by decide) (by decide) rfl rfl
theorem ldVxMem (x : Reg) : Statement (.ldVxMem x) :=
  formatX _ 0xF x 0x65 (by decide) (by decide) rfl rfl

end Sys2Proof.Laws.EncodesItsRow
end

