-- ==== Sys2Proof/Laws/Step.lean ====
section
/-! SUPPORT. What a step and an event can do, said once. -/

namespace Sys2Proof.Machine

/-- The word the next fetch reads. -/
def State.wordAtPc (s : State) : Word :=
  wordOfBytes (s.readByte s.pc.toNat) (s.readByte (s.pc.toNat + 1))

/-- Everything the fetch can do (R52). -/
theorem fetch_cases (s : State) :
    (s.pc.toNat ≤ 0xFFE ∧ fetch s = .ok s.wordAtPc) ∨
    (0xFFE < s.pc.toNat ∧ fetch s = .error (.addressOutOfRange s.pc (max s.pc.toNat 0x1000))) := by
  rcases firstInvalid?_cases s.pc.toNat 2 with ⟨h, hr⟩ | ⟨h, hr⟩
  · refine .inl ⟨by omega, ?_⟩
    simp only [fetch, Config.instrBytes, h]
    rfl
  · refine .inr ⟨by omega, ?_⟩
    simp only [fetch, Config.instrBytes, h]

/-- Everything a step can do (R90). -/
theorem step_cases (s : State) :
    (0xFFE < s.pc.toNat ∧ step s = .fault (.addressOutOfRange s.pc (max s.pc.toNat 0x1000))) ∨
    (s.pc.toNat ≤ 0xFFE ∧ decodeWord s.wordAtPc = none ∧
      step s = .fault (.illegalOpcode s.pc s.wordAtPc)) ∨
    ∃ i, s.pc.toNat ≤ 0xFFE ∧ decodeWord s.wordAtPc = some i ∧ step s = exec i s.advancePc := by
  rcases fetch_cases s with ⟨hpc, hf⟩ | ⟨hpc, hf⟩
  · cases hd : decodeWord s.wordAtPc with
    | none => exact .inr (.inl ⟨hpc, rfl, by simp [step, hf, hd]⟩)
    | some i => exact .inr (.inr ⟨i, hpc, rfl, by simp [step, hf, hd]⟩)
  · exact .inl ⟨hpc, by simp [step, hf]⟩

/-- A step that answers a next state ran the decoded instruction. -/
theorem step_next {s t : State} (h : step s = .next t) :
    ∃ i, s.pc.toNat ≤ 0xFFE ∧ decodeWord s.wordAtPc = some i ∧ exec i s.advancePc = .next t := by
  rcases step_cases s with ⟨-, e⟩ | ⟨-, -, e⟩ | ⟨i, hpc, hd, e⟩
  · rw [h] at e; cases e
  · rw [h] at e; cases e
  · exact ⟨i, hpc, hd, e ▸ h⟩

/-- What holds before a run and is kept by each of its events holds after it. -/
theorem runEvents_keeps (P : State → Prop) (ok : Event → Prop)
    (hstep : ∀ e s, ok e → P s → P (applyEvent e s).1) (es : List Event) (s : State)
    (hok : ∀ e ∈ es, ok e) (hs : P s) : P (runEvents es s).1 := by
  induction es generalizing s with
  | nil => exact hs
  | cons e es ih =>
    exact ih _ (fun e' he' => hok e' (List.mem_cons_of_mem _ he')) (hstep e s (hok e List.mem_cons_self) hs)

/-- The `reset` event leaves memory in canonical form, whatever `INIT` holds. -/
theorem resetEvent_wf (init : Init) (s : State) : (resetEvent init s).mem.wf = true :=
  Memory.wf_writeBytes [] 0 _ Memory.wf_nil

/-- The `reset` event lists only addresses of `MEM`, whatever `INIT` holds. -/
theorem resetEvent_bounded (init : Init) (s : State) : (resetEvent init s).mem.bounded = true :=
  Memory.bounded_writeBytes [] 0 _ (by simp) rfl

end Sys2Proof.Machine
end

