-- ==== Sys2Proof/Tests/Slice0.lean ====
section
/-! SUPPORT. The model's own tests. Expected results are the spec's worked examples and vectors
(95_test_vectors.md) or written out by hand from the rules; the last part gives, for each statement that has
hypotheses, a concrete state and operands that meet them. -/

namespace Sys2Proof.Tests

open Sys2Proof Sys2Proof.Machine

/-! ### Helpers -/

/-- The reset state with some registers set. -/
def regs (l : List (Reg × Byte)) : State := l.foldl (fun s p => s.setV p.1 p.2) State.reset

/-- Does the outcome give a next state with a property? -/
def gives (r : Result) (p : State → Bool) : Bool :=
  match r with
  | .next t => p t
  | .fault _ => false
  | .refused _ => false

/-- Is the outcome this fault? -/
def stopsWith (r : Result) (f : Fault) : Bool :=
  match r with
  | .next _ => false
  | .fault g => g == f
  | .refused _ => false

/-- One step from `s` with the word `w` at `pc`. -/
def run (s : State) (w : Nat) : Result := step (s.withFetchWord 16 w)

/-! ### Decoding: every constructor, by words written out from R76 -/

theorem test_decode_family0 : decodeWord 0x00E0 = some .cls ∧ decodeWord 0x00EE = some .ret := by decide
theorem test_decode_jumps : decodeWord 0x1ABC = some (.jpNnn 0xABC) ∧
    decodeWord 0x2300 = some (.callNnn 0x300) ∧ decodeWord 0xBABC = some (.jpV0Nnn 0xABC) := by decide
theorem test_decode_skips : decodeWord 0x3A42 = some (.seVxKk 0xA 0x42) ∧
    decodeWord 0x4A42 = some (.sneVxKk 0xA 0x42) ∧ decodeWord 0x5120 = some (.seVxVy 1 2) ∧
    decodeWord 0x9120 = some (.sneVxVy 1 2) := by decide
theorem test_decode_immediates : decodeWord 0x6A9C = some (.ldVxKk 0xA 0x9C) ∧
    decodeWord 0x70FF = some (.addVxKk 0 0xFF) ∧ decodeWord 0xC30F = some (.rndVxKk 3 0x0F) := by decide
theorem test_decode_logic : decodeWord 0x8120 = some (.ldVxVy 1 2) ∧ decodeWord 0x8121 = some (.orVxVy 1 2) ∧
    decodeWord 0x8122 = some (.andVxVy 1 2) ∧ decodeWord 0x8123 = some (.xorVxVy 1 2) := by decide
theorem test_decode_flag_alu : decodeWord 0x8124 = some (.addVxVy 1 2) ∧
    decodeWord 0x8125 = some (.subVxVy 1 2) ∧ decodeWord 0x8126 = some (.shrVx 1 2) ∧
    decodeWord 0x8127 = some (.subnVxVy 1 2) ∧ decodeWord 0x812E = some (.shlVx 1 2) := by decide
theorem test_decode_index_and_draw : decodeWord 0xAFFF = some (.ldINnn 0xFFF) ∧
    decodeWord 0xD125 = some (.drwVxVyN 1 2 5) ∧ decodeWord 0xDFFF = some (.drwVxVyN 0xF 0xF 15) := by decide
theorem test_decode_keys : decodeWord 0xE49E = some (.skpVx 4) ∧ decodeWord 0xE4A1 = some (.sknpVx 4) := by
  decide
theorem test_decode_familyF : decodeWord 0xF107 = some (.ldVxDt 1) ∧ decodeWord 0xF00A = some (.ldVxK 0) ∧
    decodeWord 0xF015 = some (.ldDtVx 0) ∧ decodeWord 0xF518 = some (.ldStVx 5) ∧
    decodeWord 0xF21E = some (.addIVx 2) ∧ decodeWord 0xF029 = some (.ldFVx 0) ∧
    decodeWord 0xF033 = some (.ldBVx 0) ∧ decodeWord 0xF255 = some (.ldMemVx 2) ∧
    decodeWord 0xF165 = some (.ldVxMem 1) := by decide

/-- The bytes `D1 25` (S1), and bytes that follow. -/
theorem test_decode_bytes : decodeBytes [0xD1, 0x25, 0x60] = .instr (.drwVxVyN 1 2 5) [0x60] := by decide
theorem test_decode_truncated : decodeBytes [0xD1] = .truncated := by decide
theorem test_decode_illegal_named : decodeBytes [0x51, 0x21] = .illegalOpcode 0x5121 := by decide
theorem test_table_word : decodeTableWord 16 0x8F0E = some (.shlVx 0xF 0) := by decide

/-! ### Well-formedness: an ill-formed word of every family with a secondary selector is refused (vectors 2.1) -/

theorem test_illformed_family0 : Word.wellFormed 0x0000 = false ∧ Word.wellFormed 0x00E1 = false ∧
    Word.wellFormed 0x01E0 = false ∧ Word.wellFormed 0x0FFF = false := by decide
theorem test_illformed_family5_9 : Word.wellFormed 0x5121 = false ∧ Word.wellFormed 0x912F = false := by decide
theorem test_illformed_family8 : Word.wellFormed 0x8128 = false ∧ Word.wellFormed 0x812D = false ∧
    Word.wellFormed 0x812F = false := by decide
theorem test_illformed_familyE : Word.wellFormed 0xE49F = false ∧ Word.wellFormed 0xE400 = false := by decide
theorem test_illformed_familyF : Word.wellFormed 0xF00B = false ∧ Word.wellFormed 0xF0FF = false ∧
    Word.wellFormed 0xF075 = false := by decide
/-- `decode` refuses the same words. -/
theorem test_decode_refuses : (([0x0000, 0x00E1, 0x01E0, 0x0FFF, 0x5121, 0x912F] : List Word) ++
    [0x8128, 0x812D, 0x812F, 0xE49F, 0xE400, 0xF00B, 0xF0FF, 0xF075]).all (fun op => (decodeWord op).isNone)
    = true := by decide
/-- The check on instructions accepts; it is no constant, since a row that is not the instruction's refuses. -/
theorem test_wellformed_instr : Instr.wellFormed (.seVxVy 1 2) = true ∧
    (Instr.row (.sneVxVy 1 2)).admits (encode (.seVxVy 1 2)) = false := by decide
/-- The rows of R76 are 34 and disjoint in their fixed bits. -/
theorem test_rows_disjoint : opcodeRows.length = 34 ∧ opcodeRows.Pairwise fun r q =>
    r.value &&& (r.mask &&& q.mask) ≠ q.value &&& (r.mask &&& q.mask) := by decide

/-! ### Instructions, one step each (vectors 2.2 to 2.8) -/

theorem test_cls : gives (run { regs [(15, 0x55)] with fb := Framebuffer.clear.toggle 0 0 } 0x00E0)
    (fun t => t.fb == Framebuffer.clear && t.getV 15 == 0x55) = true := by decide
theorem test_ret : gives (run { State.reset with sp := 2, stack := State.reset.stack.set 1 0x0246 } 0x00EE)
    (fun t => t.pc == 0x0246 && t.sp == 1) = true := by decide
theorem test_ret_empty : stopsWith (run State.reset 0x00EE) (.stackUnderflow 0x0200) = true := by decide
theorem test_jp : gives (run State.reset 0x1ABC) (fun t => t.pc == 0x0ABC) = true := by decide
theorem test_jp_self : gives (run State.reset 0x1200) (fun t => t == State.reset.withFetchWord 16 0x1200)
    = true := by decide
theorem test_call : gives (run { State.reset with sp := 15 } 0x2300)
    (fun t => t.stack[15] == 0x0202 && t.sp == 16 && t.pc == 0x0300) = true := by decide
theorem test_call_full : stopsWith (run { State.reset with sp := 16 } 0x2300) (.stackOverflow 0x0200) = true := by
  decide
theorem test_se_imm : gives (run (regs [(0xA, 0x42)]) 0x3A42) (fun t => t.pc == 0x0204) = true ∧
    gives (run (regs [(0xA, 0x43)]) 0x3A42) (fun t => t.pc == 0x0202) = true := by decide
theorem test_sne_imm : gives (run (regs [(0xA, 0x42)]) 0x4A42) (fun t => t.pc == 0x0202) = true ∧
    gives (run (regs []) 0x4A42) (fun t => t.pc == 0x0204) = true := by decide
theorem test_se_reg : gives (run (regs [(0xA, 0xFF), (0xB, 0xFF)]) 0x5AB0) (fun t => t.pc == 0x0204) = true := by
  decide
theorem test_sne_reg : gives (run (regs [(0xA, 1), (0xB, 2)]) 0x9AB0) (fun t => t.pc == 0x0204) = true ∧
    gives (run (regs [(0xA, 1)]) 0x9AA0) (fun t => t.pc == 0x0202) = true := by decide
theorem test_ld_imm_vf : gives (run (regs []) 0x6F07) (fun t => t.getV 15 == 0x07) = true := by decide
theorem test_add_imm_wraps : gives (run (regs [(0, 0xFF), (15, 0x55)]) 0x7001)
    (fun t => t.getV 0 == 0x00 && t.getV 15 == 0x55) = true := by decide
theorem test_ld_reg : gives (run (regs [(2, 0xAB)]) 0x8120) (fun t => t.getV 1 == 0xAB) = true := by decide
theorem test_or : gives (run (regs [(1, 0xF0), (2, 0x0F), (15, 0x55)]) 0x8121)
    (fun t => t.getV 1 == 0xFF && t.getV 15 == 0x55) = true := by decide
theorem test_and : gives (run (regs [(1, 0xF0), (2, 0x3C)]) 0x8122) (fun t => t.getV 1 == 0x30) = true := by decide
theorem test_xor : gives (run (regs [(1, 0xF0), (2, 0x3C)]) 0x8123) (fun t => t.getV 1 == 0xCC) = true := by decide
theorem test_add_carry : gives (run (regs [(1, 0xFF), (2, 0x01)]) 0x8124)
    (fun t => t.getV 1 == 0x00 && t.getV 15 == 1) = true := by decide
theorem test_add_255_no_carry : gives (run (regs [(1, 0x80), (2, 0x7F), (15, 9)]) 0x8124)
    (fun t => t.getV 1 == 0xFF && t.getV 15 == 0) = true := by decide
theorem test_sub_borrow : gives (run (regs [(1, 0x05), (2, 0x0A), (15, 9)]) 0x8125)
    (fun t => t.getV 1 == 0xFB && t.getV 15 == 0) = true := by decide
theorem test_sub_equal_strict : gives (run (regs [(1, 0x07), (2, 0x07), (15, 9)]) 0x8125)
    (fun t => t.getV 1 == 0x00 && t.getV 15 == 0) = true := by decide
theorem test_shr : gives (run (regs [(1, 0xFF), (2, 0x12)]) 0x8126)
    (fun t => t.getV 1 == 0x7F && t.getV 15 == 1 && t.getV 2 == 0x12) = true := by decide
/-- `81F6` is no alias case: the field `y` of SHR is no operand (2.4). -/
theorem test_shr_y_ignored : gives (run (regs [(1, 0x04), (15, 9)]) 0x81F6)
    (fun t => t.getV 1 == 0x02 && t.getV 15 == 0) = true := by decide
theorem test_subn : gives (run (regs [(1, 0x05), (2, 0x0A)]) 0x8127)
    (fun t => t.getV 1 == 0x05 && t.getV 15 == 1) = true := by decide
theorem test_subn_wraps : gives (run (regs [(1, 0x0A), (2, 0x05), (15, 9)]) 0x8127)
    (fun t => t.getV 1 == 0xFB && t.getV 15 == 0) = true := by decide
theorem test_shl : gives (run (regs [(1, 0x80), (15, 9)]) 0x812E)
    (fun t => t.getV 1 == 0x00 && t.getV 15 == 1) = true := by decide
theorem test_alias_refused : stopsWith (run (regs [(15, 0xFF), (1, 3)]) 0x8F14)
    (.unspecifiedAlias 0x0200 0x8F14) = true := by decide
/-- Rows of 2.4 under the three policies that write: here `8F14` and `81F5`. -/
theorem test_alias_flag_last : gives (run { regs [(15, 0xFF), (1, 3)] with aliasPolicy := .flagLast } 0x8F14)
    (fun t => t.getV 15 == 0x01) = true ∧
    gives (run { regs [(1, 0x0A), (15, 5)] with aliasPolicy := .flagLast } 0x81F5)
    (fun t => t.getV 1 == 0x05 && t.getV 15 == 1) = true := by decide
theorem test_alias_result_last :
    gives (run { regs [(15, 0xFF), (1, 3)] with aliasPolicy := .resultLast } 0x8F14)
    (fun t => t.getV 15 == 0x02) = true ∧
    gives (run { regs [(15, 0x81)] with aliasPolicy := .resultLast } 0x8F0E)
    (fun t => t.getV 15 == 0x02) = true := by decide
theorem test_alias_sequential :
    gives (run { regs [(15, 0x05), (1, 0x0A)] with aliasPolicy := .sequential } 0x8F17)
    (fun t => t.getV 15 == 0x09) = true ∧
    gives (run { regs [(15, 0x07)] with aliasPolicy := .sequential } 0x8F06)
    (fun t => t.getV 15 == 0x00) = true ∧
    gives (run { regs [(1, 0x05), (15, 0x0A)] with aliasPolicy := .sequential } 0x81F7)
    (fun t => t.getV 1 == 0xFC && t.getV 15 == 1) = true := by decide
/-- A mask of 0 gives 0 whatever the draw is, and one draw is consumed. -/
theorem test_rnd : gives (run (regs [(3, 0x77)]) 0xC300) (fun t => t.draws == 1) = true ∧
    ∀ s : State, ∃ t, exec (.rndVxKk 3 0) s = .next t ∧ t.getV 3 = 0 :=
  ⟨by decide, fun _ => ⟨_, rfl, by simp⟩⟩
theorem test_ld_i : gives (run State.reset 0xAFFF) (fun t => t.regI == 0x0FFF) = true := by decide
theorem test_add_i_past_4096 : gives (run { regs [(0, 1), (15, 0x55)] with regI := 0x0FFF } 0xF01E)
    (fun t => t.regI == 0x1000 && t.getV 15 == 0x55) = true := by decide
theorem test_add_i_wraps : gives (run { regs [(0, 1)] with regI := 0xFFFF } 0xF01E)
    (fun t => t.regI == 0) = true := by decide
theorem test_ld_f_no_mask : gives (run (regs [(0, 0xFF)]) 0xF029) (fun t => t.regI == 0x054B) = true := by decide
theorem test_ld_b : gives (run { regs [(0, 0x9C)] with regI := 0x0FFD } 0xF033)
    (fun t => t.readByte 0xFFD == 1 && t.readByte 0xFFE == 5 && t.readByte 0xFFF == 6) = true := by decide
theorem test_ld_b_out : stopsWith (run { State.reset with regI := 0x0FFE } 0xF033)
    (.addressOutOfRange 0x0200 0x1000) = true := by decide
/-- `F255` over its own bytes: this step is not affected (2.5). -/
theorem test_dump_over_itself : gives (run { regs [(0, 0x12), (1, 0), (2, 0x60)] with regI := 0x0200 } 0xF255)
    (fun t => t.readByte 0x200 == 0x12 && t.readByte 0x201 == 0 && t.readByte 0x202 == 0x60 && t.pc == 0x0202)
    = true := by decide
theorem test_dump_out : stopsWith (run { State.reset with regI := 0x0FFF } 0xF155)
    (.addressOutOfRange 0x0200 0x1000) = true := by decide
theorem test_load : gives (run (({ regs [(2, 0x55)] with regI := 0x0400 }).storeBytes 0x400 [7, 8, 9]) 0xF165)
    (fun t => t.getV 0 == 7 && t.getV 1 == 8 && t.getV 2 == 0x55 && t.regI == 0x0400) = true := by decide
theorem test_load_out : stopsWith (run { State.reset with regI := 0x1001 } 0xF065)
    (.addressOutOfRange 0x0200 0x1001) = true := by decide
/-- `D012` at (255, 255) lights exactly the four pixels of 2.6. -/
theorem test_draw_wraps :
    gives (run (({ regs [(0, 0xFF), (1, 0xFF)] with regI := 0x300 }).storeBytes 0x300 [0x81, 0xC0]) 0xD012)
    (fun t => t.fb == (((Framebuffer.clear.toggle 63 31).toggle 6 31).toggle 63 0).toggle 0 0 &&
      t.getV 15 == 0) = true := by decide
/-- A partial overlap collides (2.6). -/
theorem test_draw_collides :
    gives (run (({ regs [] with regI := 0x300, fb := Framebuffer.clear.toggle 1 0 }).storeBytes 0x300 [0xC0]) 0xD011)
    (fun t => t.fb.at 0 && !t.fb.at 1 && t.getV 15 == 1) = true := by decide
theorem test_draw_zero_rows : gives (run { regs [(15, 0x55)] with regI := 0xFFFF } 0xD010)
    (fun t => t.fb == Framebuffer.clear && t.getV 15 == 0) = true := by decide
theorem test_draw_out : stopsWith (run { State.reset with regI := 0x0FFE } 0xD013)
    (.addressOutOfRange 0x0200 0x1000) = true := by decide
theorem test_skp : gives (run { regs [(4, 0x0A)] with keys := State.reset.keys.set 10 true } 0xE49E)
    (fun t => t.pc == 0x0204) = true ∧
    stopsWith (run (regs [(4, 0x10)]) 0xE49E) (.keyIndexOutOfRange 0x0200 0x10) = true := by decide
theorem test_sknp : gives (run { regs [(4, 0x0A)] with keys := State.reset.keys.set 10 true } 0xE4A1)
    (fun t => t.pc == 0x0202) = true ∧ gives (run (regs [(4, 0x0A)]) 0xE4A1) (fun t => t.pc == 0x0204) = true := by
  decide
theorem test_ld_k_lowest :
    gives (run { State.reset with keys := (State.reset.keys.set 3 true).set 7 true } 0xF00A)
    (fun t => t.getV 0 == 3 && t.pc == 0x0202) = true := by decide
theorem test_ld_k_waits : gives (run (regs [(5, 0x77)]) 0xF50A)
    (fun t => t == (regs [(5, 0x77)]).withFetchWord 16 0xF50A) = true := by decide
theorem test_ld_vx_dt : gives (run { State.reset with dt := 0x2A } 0xF107)
    (fun t => t.getV 1 == 0x2A && t.dt == 0x2A) = true := by decide
theorem test_ld_dt : gives (run (regs [(0, 0xFF)]) 0xF015) (fun t => t.dt == 0xFF) = true := by decide
theorem test_ld_st : gives (run { State.reset with st := 9 } 0xF018) (fun t => t.st == 0) = true := by decide
theorem test_jp_v0 : gives (run (regs [(0, 0xFF)]) 0xBFFF) (fun t => t.pc == 0x10FE) = true := by decide

/-! ### Fetch and events (vectors 2.7, 2.8, S9, S11) -/

theorem test_fetch_last_word : gives (run { State.reset with pc := 0x0FFE } 0x6001)
    (fun t => t.getV 0 == 1 && t.pc == 0x1000) = true := by decide
theorem test_fetch_out : stopsWith (step { State.reset with pc := 0x0FFF }) (.addressOutOfRange 0x0FFF 0x1000) = true ∧
    stopsWith (step { State.reset with pc := 0x10FE }) (.addressOutOfRange 0x10FE 0x10FE) = true := by decide
theorem test_fetch_odd : gives (run { State.reset with pc := 0x0201 } 0x6107)
    (fun t => t.getV 1 == 7 && t.pc == 0x0203) = true := by decide
theorem test_illegal_word : stopsWith (run State.reset 0xFFFF) (.illegalOpcode 0x0200 0xFFFF) = true := by decide
theorem test_tick : (applyEvent .tick { State.reset with dt := 4, st := 1 }).1 = { State.reset with dt := 3 } ∧
    (applyEvent .tick { State.reset with dt := 4, st := 1 }).2 = .soundStop := by decide
theorem test_tick_floor : applyEvent .tick State.reset = (State.reset, .quiet) := by decide
theorem test_key_write : ((applyEvent (.keyWrite 3 true) State.reset).1).keyDown 3 = true := by decide
theorem test_fb_read : applyEvent .fbRead State.reset = (State.reset, .pixels Framebuffer.clear) := by decide
theorem test_load_program : (applyEvent (.loadProgram (some [0x12, 0x34])) { State.reset with pc := 7 }).1 =
    { State.reset with mem := [(0x200, 0x12), (0x201, 0x34)] } := by decide
theorem test_load_source_absent :
    applyEvent (.loadProgram none) State.reset = (State.reset, .loadFailed .sourceNotFound) := by decide
theorem test_load_too_long (bytes : List Byte) (h : bytes.length = 3585) :
    loadProgram bytes State.reset = .error .capacityExceeded :=
  if_pos (by rw [h]; decide)
theorem test_load_font : (loadFont Config.conventionalFont State.reset).readByte 0x082 = 0xF0 ∧
    (loadFont Config.conventionalFont State.reset).readByte 0x09F = 0x80 := by decide
/-- Every code of R200 and R212. -/
theorem test_codes : [Fault.illegalOpcode 0 0, .stackUnderflow 0, .stackOverflow 0, .addressOutOfRange 0 0,
    .keyIndexOutOfRange 0 0, .unspecifiedAlias 0 0].map Fault.code = [1, 2, 3, 4, 5, 6] ∧
    [LoadError.capacityExceeded, .sourceNotFound].map LoadError.code = [16, 17] := by decide
/-- State.reset is what the `reset` event makes of it with INIT at the values the log names. -/
theorem test_reset_is_reset_event : resetEvent ⟨State.reset.v, 0, 0x200, State.reset.stack, 0, 0, []⟩ State.reset =
    State.reset := by decide
/-- A pc that no fetch can use is set to the entry point before the word is placed (log 9). -/
theorem test_with_fetch_word_out : gives (run { State.reset with pc := 0xFFFF } 0x6001)
    (fun t => t.getV 0 == 1) = true := by decide

/-! ### Witnesses: for each statement with hypotheses, states and operands that meet them all, at the boundary
values of each clause -/

/-- The reset state with `I` set. -/
def atI (a : Word) : State := State.reset.setI a

/-- The reset state with `n` stack entries in use, each 0x0206. -/
def withDepth (n : Fin 17) : State := { State.reset with sp := n, stack := Vector.replicate 16 0x0206 }

/-- The reset state under a policy, with three registers set. -/
def under (p : Config.VfAliasPolicy) : State := { regs [(1, 3), (2, 0xFE), (15, 0x81)] with aliasPolicy := p }

/-- The reset state with keys 3 and 15 down. -/
def twoKeys : State := { State.reset with keys := (State.reset.keys.set 3 true).set 15 true }

theorem witness_EncodeOfDecodeIsTheWord : decodeWord 0xD125 = some (.drwVxVyN 1 2 5) := by decide
theorem witness_DecoderAgreesWithOpcodeRows : (decodeWord 0x8120 = some (.ldVxVy 1 2)) ∧
    (⟨0xF00F, 0x8000⟩ ∈ opcodeRows ∧ (0x8120 : Word) &&& 0xF00F = 0x8000) ∧
    fetch State.reset = .ok 0x0000 ∧ ∀ r ∈ opcodeRows, (0x0000 : Word) &&& r.mask ≠ r.value :=
  ⟨by decide, by decide, rfl, by decide⟩
theorem witness_ZeroFamilyWordsAreIllegal : fetch State.reset = .ok 0x0000 ∧
    fetch (State.reset.withFetchWord 16 0x0FFF) = .ok 0x0FFF ∧ (0x0FFF : Word).toNat < 0x1000 ∧
    (0x0FFF : Word) ≠ 0x00E0 ∧ (0x0FFF : Word) ≠ 0x00EE ∧ (0x0000 : Word) ≠ 0x00E0 ∧ (0x0000 : Word) ≠ 0x00EE :=
  ⟨rfl, rfl, by decide, by decide, by decide, by decide, by decide⟩
/-- The last state of memory: the word at 0xFFE decodes; the zeros there do not; 0xFFF and above cannot fetch. -/
def atTop : State := (State.reset.setPc 0xFFE).withFetchWord 16 0x6107
theorem witness_StepRunsTheDecodedInstruction :
    (atTop.pc.toNat ≤ 0xFFE ∧ decodeWord (BitVec.ofNat 16 (0x100 * (atTop.readByte atTop.pc.toNat).toNat
      + (atTop.readByte (atTop.pc.toNat + 1)).toNat)) = some (.ldVxKk 1 7)) ∧
    ((State.reset.setPc 0xFFE).pc.toNat ≤ 0xFFE ∧ decodeWord (BitVec.ofNat 16 (0x100 *
      ((State.reset.setPc 0xFFE).readByte 0xFFE).toNat + ((State.reset.setPc 0xFFE).readByte 0xFFF).toNat)) = none) ∧
    0xFFE < (State.reset.setPc 0xFFF).pc.toNat ∧ (∃ f, step State.reset = .fault f) ∧ ∃ t, step atTop = .next t :=
  ⟨by decide, by decide, by decide, ⟨_, rfl⟩, _, rfl⟩
theorem witness_FetchReadsTwoBytesOrFaults : (State.reset.setPc 0xFFE).pc.toNat + 1 ≤ 0xFFF ∧
    (State.reset.setPc 0xFFF).pc.toNat = 0xFFF ∧ 0x1000 ≤ (State.reset.setPc 0x1000).pc.toNat ∧
    0x1000 ≤ (State.reset.setPc 0xFFFF).pc.toNat := by decide
theorem witness_FaultLeavesTheStateAndRecurs : ∃ f, step State.reset = .fault f := ⟨_, rfl⟩
theorem witness_InstructionsFaultExactlyByTheTable : (∃ f, exec .ret State.reset = .fault f) ∧
    FaultsWhen .ret State.reset ∧ ¬FaultsWhen .ret (withDepth 1) := ⟨⟨_, rfl⟩, rfl, (by decide : ¬(withDepth 1).sp.val = 0)⟩
theorem witness_PcAfterEveryInstruction : fetch atTop = .ok 0x6107 ∧ decodeWord 0x6107 = some (.ldVxKk 1 7) ∧
    ∃ t, step atTop = .next t := ⟨rfl, by decide, _, rfl⟩
/-- A form that stores nothing, and both storing forms at the top of memory, with addresses just outside what they
store. -/
theorem witness_InstructionsWriteOnlyByTheTable : (∃ t, exec (.callNnn 0x300) State.reset = .next t) ∧
    (∃ t, exec (.ldBVx 0) (atI 0xFFD) = .next t) ∧ (∃ t, exec (.ldMemVx 15) (atI 0xFF0) = .next t) ∧
    (0xFFC < (atI 0xFFD).dataAddr ∧ (atI 0xFFD).dataAddr + storeSize (.ldBVx 0) ≤ 0x1000) ∧
    (0xFEF < (atI 0xFF0).dataAddr ∧ (atI 0xFF0).dataAddr + storeSize (.ldMemVx 15) ≤ 0x1000) :=
  ⟨⟨_, rfl⟩, ⟨_, rfl⟩, ⟨_, rfl⟩, by decide, by decide⟩
theorem witness_SelfJumpIsAFixedPoint : Stopped (State.reset.withFetchWord 16 0x1200) := ⟨0x200, rfl, rfl⟩
theorem witness_ReturnPopsTheNewestEntry : 0 < (withDepth 1).sp.val ∧ 0 < (withDepth 16).sp.val ∧
    (withDepth 0).sp.val = 0 ∧ ((withDepth 0).withFetchWord 16 0x00EE).sp.val = 0 ∧
    fetch ((withDepth 0).withFetchWord 16 0x00EE) = .ok 0x00EE :=
  ⟨by decide, by decide, by decide, by decide, rfl⟩
theorem witness_CallPushesTheReturnAddress : (withDepth 0).sp.val < 16 ∧ (withDepth 15).sp.val < 16 ∧
    (withDepth 16).sp.val = 16 ∧ ((withDepth 16).withFetchWord 16 0x2300).sp.val = 16 ∧
    fetch ((withDepth 16).withFetchWord 16 0x2300) = .ok (BitVec.ofNat 16 (0x2000 + (0x300 : Addr12).toNat)) :=
  ⟨by decide, by decide, by decide, by decide, rfl⟩
theorem witness_SkipsOnRegister : ((1 : Nat) ≤ 1 ∧ (1 : Nat) ≤ 0xF) ∧ ((1 : Nat) ≤ 0xF ∧ (0xF : Nat) ≤ 0xF) := by
  decide
/-- For AddSetsTheCarry, SubSetsTheFlagStrictly, SubnSetsTheFlagStrictly and ShiftsPutTheBitOutInVf. -/
theorem witness_flag_instructions : ((14 : Reg) ≠ vf ∧ (0 : Reg) ≠ vf) ∧ ((15 : Reg) = vf ∨ (1 : Reg) = vf) ∧
    ((1 : Reg) = vf ∨ (15 : Reg) = vf) ∧ (under .refuse).aliasPolicy = .refuse := by decide
/-- Each alias case, and a state under each policy; the words are those that decode to the five instructions, and
one of them fetched. Last, each instruction outside the alias cases, the shifts with VF in the unused field. -/
theorem witness_AliasPolicyDecidesTheWrites (p : Config.VfAliasPolicy) :
    ((under p).aliasPolicy = p ∧ fetch ((under p).withFetchWord 16 0x8F24) = .ok 0x8F24) ∧
    (AliasCase (under p) (.addVxVy vf 2) vf 2 (fun p q => BitVec.ofNat 8 (p.toNat + q.toNat)) 1 ∧
      decodeWord 0x8F24 = some (.addVxVy vf 2)) ∧
    (AliasCase (under p) (.subVxVy 1 vf) 1 vf (fun p q => BitVec.ofNat 8 (256 + p.toNat - q.toNat)) 0 ∧
      decodeWord 0x81F5 = some (.subVxVy 1 vf)) ∧
    (AliasCase (under p) (.subnVxVy vf vf) vf vf (fun p q => BitVec.ofNat 8 (256 + q.toNat - p.toNat)) 0 ∧
      decodeWord 0x8FF7 = some (.subnVxVy vf vf)) ∧
    (AliasCase (under p) (.shrVx vf 0) vf 0 (fun p _ => BitVec.ofNat 8 (p.toNat / 2)) 1 ∧
      decodeWord 0x8F06 = some (.shrVx vf 0)) ∧
    (AliasCase (under p) (.shlVx vf 15) vf 15 (fun p _ => BitVec.ofNat 8 (2 * p.toNat)) 1 ∧
      decodeWord 0x8FFE = some (.shlVx vf 15)) ∧
    (FlagAlu (under p) (.addVxVy 1 2) 1 2 (fun p q => BitVec.ofNat 8 (p.toNat + q.toNat)) 1 ∧
      ¬VfIsOperand (.addVxVy 1 2)) ∧
    (FlagAlu (under p) (.subVxVy 14 14) 14 14 (fun p q => BitVec.ofNat 8 (256 + p.toNat - q.toNat)) 0 ∧
      ¬VfIsOperand (.subVxVy 14 14)) ∧
    (FlagAlu (under p) (.subnVxVy 1 2) 1 2 (fun p q => BitVec.ofNat 8 (256 + q.toNat - p.toNat)) 1 ∧
      ¬VfIsOperand (.subnVxVy 1 2)) ∧
    (FlagAlu (under p) (.shrVx 1 15) 1 15 (fun p _ => BitVec.ofNat 8 (p.toNat / 2)) 1 ∧
      ¬VfIsOperand (.shrVx 1 15)) ∧
    (FlagAlu (under p) (.shlVx 2 15) 2 15 (fun p _ => BitVec.ofNat 8 (2 * p.toNat)) 1 ∧
      ¬VfIsOperand (.shlVx 2 15)) := by
  refine ⟨⟨rfl, by cases p <;> rfl⟩, ⟨⟨.inl ⟨rfl, rfl, ?_⟩, .inl rfl⟩, by decide⟩,
    ⟨⟨.inr (.inl ⟨rfl, rfl, ?_⟩), .inr rfl⟩, by decide⟩, ⟨⟨.inr (.inr (.inl ⟨rfl, rfl, ?_⟩)), .inl rfl⟩, by decide⟩,
    ⟨⟨.inr (.inr (.inr (.inl ⟨rfl, rfl, ?_⟩))), rfl⟩, by decide⟩,
    ⟨⟨.inr (.inr (.inr (.inr ⟨rfl, rfl, ?_⟩))), rfl⟩, by decide⟩,
    ⟨.inl ⟨rfl, rfl, ?_⟩, by simp only [VfIsOperand]; decide⟩, ⟨.inr (.inl ⟨rfl, rfl, ?_⟩), by simp only [VfIsOperand]; decide⟩,
    ⟨.inr (.inr (.inl ⟨rfl, rfl, ?_⟩)), by simp only [VfIsOperand]; decide⟩,
    ⟨.inr (.inr (.inr (.inl ⟨rfl, rfl, ?_⟩))), by simp only [VfIsOperand]; decide⟩,
    ⟨.inr (.inr (.inr (.inr ⟨rfl, rfl, ?_⟩))), by simp only [VfIsOperand]; decide⟩⟩ <;> cases p <;> decide
theorem witness_FlagWritersLeaveZeroOrOne : (∃ t, exec (.addVxVy 1 2) (under .refuse) = .next t) ∧
    (∃ t, exec (.shlVx 1 15) (under .refuse) = .next t) ∧ (∃ t, exec (.drwVxVyN 15 15 1) (atI 0xFFF) = .next t) ∧
    (1 : Reg) ≠ vf ∧ (2 : Reg) ≠ vf := ⟨⟨_, rfl⟩, ⟨_, rfl⟩, ⟨_, rfl⟩, by decide, by decide⟩
theorem witness_RandomStoresTheMaskedDraw : ((∃ t, exec .cls State.reset = .next t) ∧
    ∀ x kk, Instr.cls ≠ .rndVxKk x kk) ∧ ∃ f, step State.reset = .fault f :=
  ⟨⟨⟨_, rfl⟩, nofun⟩, _, rfl⟩
theorem witness_BcdStoresThreeDigits : ((atI 0xFFD).dataAddr + 2 ≤ 0xFFF ∧ (atI 0xFFD).mem.wf = true) ∧
    (0xFFC < (atI 0xFFD).dataAddr ∧ (atI 0xFFD).dataAddr + 2 < 0x1000) ∧ 0xFFF < (atI 0xFFE).dataAddr + 2 ∧
    0xFFF < (atI 0xFFFF).dataAddr + 2 := by decide
theorem witness_RegisterDumpStoresTheBlock : ((atI 0xFF0).dataAddr + (15 : Reg).val ≤ 0xFFF ∧
    (atI 0xFF0).mem.wf = true ∧ (15 : Reg).val ≤ (15 : Reg).val) ∧ (atI 0xFFF).dataAddr + (0 : Reg).val ≤ 0xFFF ∧
    (0xFEF < (atI 0xFF0).dataAddr ∧ (atI 0xFF0).dataAddr + (15 : Reg).val < 0x1000) ∧
    0xFFF < (atI 0xFF1).dataAddr + (15 : Reg).val ∧ 0xFFF < (atI 0x1000).dataAddr + (0 : Reg).val := by decide
theorem witness_RegisterLoadReadsTheBlock : ((atI 0xFF0).regI.toNat + (15 : Reg).val ≤ 0xFFF) ∧
    ((atI 0xFFF).regI.toNat + (0 : Reg).val ≤ 0xFFF ∧ (0 : Reg).val < (1 : Reg).val) ∧
    0xFFF < (atI 0xFF1).regI.toNat + (15 : Reg).val ∧ 0xFFF < (atI 0x1000).regI.toNat + (0 : Reg).val := by decide
/-- `u` of the statement can be the state the dump leaves itself. -/
theorem witness_DumpThenLoadRestoresTheRegisters : (atI 0xFF0).mem.wf = true ∧
    (atI 0xFF0).regI.toNat + (15 : Reg).val ≤ 0xFFF ∧ ∃ t, exec (.ldMemVx 15) (atI 0xFF0) = .next t ∧
    t.regI = (atI 0xFF0).regI ∧ ∀ r : Reg, r.val ≤ (15 : Reg).val →
      t.readByte ((atI 0xFF0).regI.toNat + r.val) = t.readByte ((atI 0xFF0).regI.toNat + r.val) :=
  ⟨by decide, by decide, _, rfl, rfl, fun _ _ => rfl⟩
theorem witness_MemoryReadAfterWrite : Memory.wf [(0x050, 0xF0), (0xFFF, 1)] = true := by decide
theorem witness_EqualBytesAreEqualMemories : Memory.wf [(0xFFF, 1)] = true ∧
    ∀ a, Memory.read [(0xFFF, 1)] a = Memory.read (Memory.write [] 0xFFF 1) a := ⟨by decide, fun _ => rfl⟩
theorem witness_DrawXorsTheSpriteAtTheIndex :
    ((0 : Fin 16).val = 0 ∨ (atI 0xFFFF).regI.toNat + (0 : Fin 16).val - 1 ≤ 0xFFF) ∧
    ((1 : Fin 16).val = 0 ∨ (atI 0xFFF).regI.toNat + (1 : Fin 16).val - 1 ≤ 0xFFF) ∧
    (((15 : Fin 16).val = 0 ∨ (atI 0xFF1).regI.toNat + (15 : Fin 16).val - 1 ≤ 0xFFF) ∧
      List.replicate 15 0 = (List.range (15 : Fin 16).val).map
        (fun r => (atI 0xFF1).readByte ((atI 0xFF1).regI.toNat + r))) ∧
    (0 < (1 : Fin 16).val ∧ 0xFFF < (atI 0x1000).regI.toNat + (1 : Fin 16).val - 1) ∧
    (0 < (15 : Fin 16).val ∧ 0xFFF < (atI 0xFF2).regI.toNat + (15 : Fin 16).val - 1) := by decide
/-- A sprite of the greatest height; pixel (63, 31) is covered by its first bit, pixel (62, 31) is not. -/
theorem witness_DrawTogglesExactlyTheCoveredPixels : (List.replicate 15 (0x81 : Byte)).length ≤ 15 ∧
    SpriteCovers (List.replicate 15 0x81) 255 255 63 31 ∧ ¬SpriteCovers [] 255 255 62 31 ∧
    Framebuffer.pixel (Framebuffer.clear.toggle 63 31) 63 31 = true := by
  refine ⟨by decide, ⟨0, 0, by decide, by decide, by decide, by decide, by decide⟩, ?_, by decide⟩
  rintro ⟨r, c, h, _⟩
  exact absurd h (Nat.not_lt_zero r)
theorem witness_DrawingTwiceRestoresTheFramebuffer : (List.replicate 15 (0xFF : Byte)).length ≤ 15 ∧
    SpriteCovers [0x80] 0 0 0 0 ∧ Framebuffer.clear.pixel 0 0 = false :=
  ⟨by decide, ⟨0, 0, by decide, by decide, by decide, by decide, by decide⟩, by decide⟩
theorem witness_KeySkips : (twoKeys.getV 4).toNat = (0 : Key).val ∧
    ((twoKeys.setV 4 15).getV 4).toNat = (15 : Key).val ∧ 0xF < ((twoKeys.setV 4 0x10).getV 4).toNat ∧
    0xF < ((twoKeys.setV 4 0xFF).getV 4).toNat ∧ twoKeys.keyDown 15 = true ∧ twoKeys.keyDown 0 = false := by decide
theorem witness_WaitKeyTakesTheLowestKeyOrRepeats :
    (twoKeys.keyDown 3 = true ∧ ∀ j : Key, j < 3 → twoKeys.keyDown j = false) ∧
    (∀ k, State.reset.keyDown k = false) ∧ (∀ k, (State.reset.withFetchWord 16 0xFF0A).keyDown k = false) ∧
    fetch (State.reset.withFetchWord 16 0xFF0A) = .ok (BitVec.ofNat 16 (0xF00A + 0x100 * (15 : Reg).val)) :=
  ⟨by decide, by decide, by decide, rfl⟩
theorem witness_NthTickEmitsSoundStop : ((State.reset.setSt 1).st.toNat = 1 ∧ (1 : Nat) ≤ 1) ∧
    ((State.reset.setSt 255).st.toNat = 255 ∧ (1 : Nat) ≤ 255) ∧
    (Event.step.isNotReset = true ∧ Event.step ≠ .tick) ∧
    ∀ op x, fetch atTop = .ok op → decodeWord op ≠ some (.ldStVx x) := by
  refine ⟨by decide, by decide, by decide, fun op x h => ?_⟩
  have e : fetch atTop = .ok 0x6107 := rfl
  rw [e] at h
  cases h
  decide +revert
theorem witness_OnlyKeyWritesChangeTheLatch : (∀ e ∈ [Event.step, .tick, .fbRead, .loadProgram none],
    e.isNotKeyWrite = true) ∧ (2 : Key) ≠ 3 := by decide
theorem witness_NoInstructionReadsTheSoundTimer : (∃ t, step atTop = .next t) ∧ ∃ f, step State.reset = .fault f :=
  ⟨⟨_, rfl⟩, _, rfl⟩
theorem witness_OnlyKeyInstructionsReadTheLatch : ((∀ x, Instr.ret ≠ .skpVx x) ∧ (∀ x, Instr.ret ≠ .sknpVx x) ∧
    ∀ x, Instr.ret ≠ .ldVxK x) ∧ (∃ t, exec .ret (withDepth 1) = .next t) ∧ ∃ f, exec .ret (withDepth 0) = .fault f :=
  ⟨⟨nofun, nofun, nofun⟩, ⟨_, rfl⟩, _, rfl⟩
/-- A tick; a step that runs another instruction (atTop, which fetches 0x6107). -/
theorem witness_DelayTimerNeverRisesUnwritten : (Event.tick.isNotReset = true ∧ Event.tick ≠ .step) ∧
    Event.step.isNotReset = true ∧ ∀ op x, fetch atTop = .ok op → decodeWord op ≠ some (.ldDtVx x) := by
  refine ⟨by decide, by decide, fun op x h => ?_⟩
  have e : fetch atTop = .ok 0x6107 := rfl
  rw [e] at h
  cases h
  decide +revert
theorem witness_ResetClearsTheFramebufferAndTheStack : (0 : Nat) < ([0x12] : List Byte).length ∧
    (0xFFF : Nat) < (List.replicate 4096 (0 : Byte)).length ∧ (0xFFF : Nat) ≤ 0xFFF :=
  ⟨by decide, by rw [List.length_replicate]; decide, Nat.le_refl _⟩
theorem witness_LoadFontWritesTheFontRange : State.reset.mem.wf = true ∧ ((0 : Nat) < 80 ∧ (79 : Nat) < 80) ∧
    (0x04F : Nat) < 0x050 ∧ 0x09F < (0x0A0 : Nat) := by decide
theorem witness_LoadProgramIsAllOrNothing : (List.replicate 3585 (0 : Byte)).length + 0x200 > 4096 ∧
    (List.replicate 3584 (0 : Byte)).length + 0x200 ≤ 4096 ∧ State.reset.mem.wf = true ∧
    (3583 : Nat) < (List.replicate 3584 (0 : Byte)).length ∧ (0x1FF : Nat) < 0x200 ∧
    0x200 + (List.replicate 3584 (0 : Byte)).length ≤ 0x1000 := by
  simp only [List.length_replicate]
  decide
theorem witness_LoadsCommute : State.reset.mem.wf = true := by decide
theorem witness_BootStateIsAsTheTableSays : (List.replicate 3584 (0 : Byte)).length ≤ 3584 ∧
    ([0x12, 0x34] : List Byte).length ≤ 3584 ∧ (0 : Nat) < ([0x77] : List Byte).length ∧ (0 : Nat) < 0x050 :=
  ⟨by rw [List.length_replicate], by decide, by decide, by decide⟩
theorem witness_BootEstablishesTheInvariant : ∃ t,
    boot ⟨State.reset.v, 0xFFFF, 0xFFFF, State.reset.stack, 1, 2, [0x77]⟩ Config.conventionalFont [0x12, 0x00]
      State.reset = .ok t := ⟨_, rfl⟩
/-- A call at the top of memory pushes 0x1000, the bound of the invariant. -/
theorem witness_EveryStepKeepsTheInvariant : Inv ((State.reset.setPc 0xFFE).withFetchWord 16 0x2300) ∧
    ∃ t, step ((State.reset.setPc 0xFFE).withFetchWord 16 0x2300) = .next t := ⟨by decide, _, rfl⟩
theorem witness_EveryScheduleKeepsTheInvariant : (∀ e ∈ [Event.step, .tick, .keyWrite 1 true, .fbRead,
    .loadFont Config.conventionalFont, .loadProgram (some [0x12, 0x00]), .step], e.isNotReset = true) ∧
    Inv (withDepth 16) := by decide
/-- The two states differ in an entry that is not in use. -/
theorem witness_UnusedStackEntriesAreUnobservable :
    SameButUnusedStack (withDepth 1) { withDepth 1 with stack := (withDepth 1).stack.set 1 0xBEEF } ∧
    (withDepth 1).stack ≠ (withDepth 1).stack.set 1 0xBEEF :=
  ⟨⟨rfl, by decide⟩, by decide⟩

end Sys2Proof.Tests
end

/-! SUPPORT. The input latch (R29): what a key write does to it, and that nothing else writes it. -/

namespace Sys2Proof.Machine

/-! ### A key write -/

@[simp] theorem keyDown_keyWrite_same (k : Key) (b : Bool) (s : State) : (keyWrite k b s).keyDown k = b := by
  simp [State.keyDown]

theorem keyDown_keyWrite_ne (k j : Key) (b : Bool) (s : State) (h : j ≠ k) :
    (keyWrite k b s).keyDown j = s.keyDown j := by
  have : k.val ≠ j.val := fun e => h (Fin.ext e.symm)
  simp [State.keyDown, this]

theorem keyWrite_changesOnly_inputLatch (k : Key) (b : Bool) (s : State) :
    ChangesOnly [.inputLatch] [] s (keyWrite k b s) := by
  refine ⟨fun p hp => ?_, fun r _ => getV_keyWrite s k b r⟩
  cases p with
  | inputLatch => exact absurd List.mem_cons_self hp
  | callStack => exact ⟨rfl, rfl⟩
  | memory => exact fun _ => rfl
  | _ => rfl

/-! ### No instruction writes the latch -/

theorem execRet_keys (s : State) : (stateAfter s (execRet s)).keys = s.keys := by
  rcases s.pop?_cases with ⟨-, e⟩ | ⟨_, e⟩ <;> simp only [execRet, e] <;> rfl

theorem execCallNnn_keys (nnn : Addr12) (s : State) : (stateAfter s (execCallNnn nnn s)).keys = s.keys := by
  rcases s.push?_cases s.pc with ⟨-, e⟩ | ⟨_, e⟩ <;> simp only [execCallNnn, e] <;> rfl

theorem writeAlu_keys (i : Instr) (isAlias : Bool) (x y : Reg) (f : Byte → Byte → Byte) (flag : Bool) (s : State) :
    (stateAfter s (writeAlu i isAlias x y f flag s)).keys = s.keys := by
  rcases writeAlu_cases i isAlias x y f flag s with ⟨-, -, e⟩ | ⟨-, e⟩ | ⟨-, -, e⟩ | ⟨-, -, e⟩ <;> rw [e] <;> rfl

theorem execDrwVxVyN_keys (x y : Reg) (n : Fin 16) (s : State) :
    (stateAfter s (execDrwVxVyN x y n s)).keys = s.keys := by
  rcases firstInvalid?_cases s.dataAddr n.val with ⟨e, -⟩ | ⟨e, -⟩ <;> simp only [execDrwVxVyN, e] <;> rfl

theorem execLdBVx_keys (x : Reg) (s : State) : (stateAfter s (execLdBVx x s)).keys = s.keys := by
  rcases firstInvalid?_cases s.dataAddr 3 with ⟨e, -⟩ | ⟨e, -⟩ <;> simp only [execLdBVx, e] <;> rfl

theorem execLdMemVx_keys (x : Reg) (s : State) : (stateAfter s (execLdMemVx x s)).keys = s.keys := by
  rcases firstInvalid?_cases s.dataAddr (blockSize x) with ⟨e, -⟩ | ⟨e, -⟩ <;> simp only [execLdMemVx, e] <;> rfl

theorem execLdVxMem_keys (x : Reg) (s : State) : (stateAfter s (execLdVxMem x s)).keys = s.keys := by
  rcases firstInvalid?_cases s.dataAddr (blockSize x) with ⟨e, -⟩ | ⟨e, -⟩ <;> simp only [execLdVxMem, e] <;> rfl

theorem execSkpVx_keys (x : Reg) (s : State) : (stateAfter s (execSkpVx x s)).keys = s.keys := by
  rcases keyIndex?_cases (s.getV x) with ⟨-, e⟩ | ⟨_, e⟩ <;> simp only [execSkpVx, e]
  · rfl
  · exact s.skipIf_keys _

theorem execSknpVx_keys (x : Reg) (s : State) : (stateAfter s (execSknpVx x s)).keys = s.keys := by
  rcases keyIndex?_cases (s.getV x) with ⟨-, e⟩ | ⟨_, e⟩ <;> simp only [execSknpVx, e]
  · rfl
  · exact s.skipIf_keys _

theorem execLdVxK_keys (x : Reg) (s : State) : (stateAfter s (execLdVxK x s)).keys = s.keys := by
  rcases s.lowestKey?_cases with ⟨e, -⟩ | ⟨_, e, -⟩ <;> simp only [execLdVxK, e] <;> rfl

/-- The instructions without a lemma above make plain writes to other fields. -/
theorem exec_keys (i : Instr) (s : State) : (stateAfter s (exec i s)).keys = s.keys := by
  cases i with
  | ret => exact execRet_keys s
  | callNnn nnn => exact execCallNnn_keys nnn s
  | seVxKk | sneVxKk | seVxVy | sneVxVy => exact s.skipIf_keys _
  | addVxVy | subVxVy | subnVxVy => exact writeAlu_keys ..
  | shrVx x y => exact writeAlu_keys _ _ x x (fun a _ => shrRes a) _ s
  | shlVx x y => exact writeAlu_keys _ _ x x (fun a _ => shlRes a) _ s
  | drwVxVyN x y n => exact execDrwVxVyN_keys x y n s
  | skpVx x => exact execSkpVx_keys x s
  | sknpVx x => exact execSknpVx_keys x s
  | ldVxK x => exact execLdVxK_keys x s
  | ldBVx x => exact execLdBVx_keys x s
  | ldMemVx x => exact execLdMemVx_keys x s
  | ldVxMem x => exact execLdVxMem_keys x s
  | _ => rfl

/-! ### No event but a key write writes the latch -/

/-- A fault discards the advance of `pc`, which does not touch the latch. -/
theorem stateAfter_keys_advancePc (s : State) (r : Result) :
    (stateAfter s r).keys = (stateAfter s.advancePc r).keys := by
  cases r <;> rfl

theorem step_keys (s : State) : (stateAfter s (step s)).keys = s.keys := by
  rcases step_cases s with ⟨-, e⟩ | ⟨-, -, e⟩ | ⟨i, -, -, e⟩ <;> rw [e]
  · rfl
  · rfl
  · calc (stateAfter s (exec i s.advancePc)).keys
        = (stateAfter s.advancePc (exec i s.advancePc)).keys := stateAfter_keys_advancePc s _
      _ = s.advancePc.keys := exec_keys i s.advancePc
      _ = s.keys := s.advancePc_keys

/-- Everything a `load_program` can do (R235). -/
theorem loadProgram_cases (bytes : List Byte) (s : State) :
    (0x1000 < bytes.length + 0x200 ∧ loadProgram bytes s = .error .capacityExceeded) ∨
    (bytes.length + 0x200 ≤ 0x1000 ∧ loadProgram bytes s = .ok ((s.storeBytes 0x200 bytes).setPc 0x200)) := by
  by_cases h : 0x1000 < bytes.length + 0x200
  · exact .inl ⟨h, if_pos h⟩
  · exact .inr ⟨by omega, if_neg h⟩

theorem afterLoad_loadFromSource_keys (source : Option (List Byte)) (s : State) :
    (afterLoad s (loadFromSource source s)).1.keys = s.keys := by
  cases source with
  | none => rfl
  | some bytes => rcases loadProgram_cases bytes s with ⟨-, e⟩ | ⟨-, e⟩ <;> simp only [loadFromSource, e] <;> rfl

theorem applyEvent_keys (e : Event) (s : State) (h : e.isNotKeyWrite = true) : (applyEvent e s).1.keys = s.keys := by
  cases e with
  | keyWrite k b => simp [Event.isNotKeyWrite] at h
  | step => exact step_keys s
  | loadProgram source => exact afterLoad_loadFromSource_keys source s
  | _ => rfl

theorem runEvents_keys (es : List Event) (s : State) (h : ∀ e ∈ es, e.isNotKeyWrite = true) :
    (runEvents es s).1.keys = s.keys :=
  runEvents_keeps (·.keys = s.keys) (·.isNotKeyWrite = true)
    (fun e t he ht => (applyEvent_keys e t he).trans ht) es s h rfl

/-- Settles O44: a key write by its effect on the latch and its frame, a run without one by induction over its
events, each of which keeps the latch. -/
theorem onlyKeyWritesChangeTheLatch : Obligations.OnlyKeyWritesChangeTheLatch :=
  ⟨fun s k b => ⟨keyWrite k b s, rfl, keyDown_keyWrite_same k b s, fun j h => keyDown_keyWrite_ne k j b s h,
    keyWrite_changesOnly_inputLatch k b s⟩, runEvents_keys⟩

end Sys2Proof.Machine

/-! ## Memory access: the fetch (R52) -/

namespace Sys2Proof.Machine

/-- R55: the word at `pc` is big-endian. -/
theorem toNat_wordAtPc (s : State) : s.wordAtPc.toNat =
    0x100 * (s.readByte s.pc.toNat).toNat + (s.readByte (s.pc.toNat + 1)).toNat := by
  rw [State.wordAtPc, toNat_wordOfBytes, Nat.mul_comm]

theorem fetch_eq_ok {s : State} (h : s.pc.toNat ≤ 0xFFE) : fetch s = .ok s.wordAtPc := by
  rcases fetch_cases s with ⟨-, e⟩ | ⟨hpc, -⟩
  · exact e
  · omega

theorem fetch_eq_error {s : State} (h : 0xFFE < s.pc.toNat) :
    fetch s = .error (.addressOutOfRange s.pc (max s.pc.toNat 0x1000)) := by
  rcases fetch_cases s with ⟨hpc, -⟩ | ⟨-, e⟩
  · omega
  · exact e

/-- Settles O7: below 0xFFF the fetch gives the word at `pc`; from 0xFFF up it faults with the larger of `pc` and
0x1000, which is 0x1000 at 0xFFF and `pc` above. -/
theorem fetchReadsTwoBytesOrFaults : Obligations.FetchReadsTwoBytesOrFaults := by
  refine fun s => ⟨fun h => ?inRange, fun h => ?atTop, fun h => ?above⟩
  case inRange => exact ⟨s.wordAtPc, fetch_eq_ok (by omega), toNat_wordAtPc s⟩
  case atTop => rw [fetch_eq_error (by omega), h, Nat.max_eq_right (by decide)]
  case above => rw [fetch_eq_error (by omega), Nat.max_eq_left h]

end Sys2Proof.Machine

/-! ## Encoding: the decoder and the opcode map (R75 to R79) -/

namespace Sys2Proof

/-! ### A decoded word is the encoding of its instruction -/

theorem encodeA_of_fieldT {op : Word} {t : Nat} (h : fieldT op = t) : encodeA t (fieldNnn op) = op :=
  h ▸ encodeA_fields op

theorem encodeXK_of_fieldT {op : Word} {t : Nat} (h : fieldT op = t) : encodeXK t (fieldX op) (fieldKk op) = op :=
  h ▸ encodeXK_fields op

theorem encodeXYN_of_fieldT {op : Word} {t : Nat} (h : fieldT op = t) :
    encodeXYN t (fieldX op) (fieldY op) (fieldN op) = op :=
  h ▸ encodeXYN_fields op

theorem encode_of_decodeFamily0 {op : Word} {i : Instr} (h : decodeFamily0 op = some i) : encode i = op := by
  unfold decodeFamily0 at h
  split at h
  case isTrue e => cases h; exact e.symm
  case isFalse =>
    split at h <;> cases h
    case isTrue e => exact e.symm

/-- The low nibble selects the instruction and is the low nibble of its word (R77). -/
theorem encode_of_decodeFamily8 {x y n : Fin 16} {i : Instr} (h : decodeFamily8 x y n.val = some i) :
    encode i = encodeXYN 0x8 x y n := by
  unfold decodeFamily8 at h
  split at h <;> cases h
  all_goals
    rename_i e
    rw [encodeXYN, e]
    rfl

theorem encode_of_decodeFamilyE {x : Reg} {kk : Byte} {i : Instr} (h : decodeFamilyE x kk.toNat = some i) :
    encode i = encodeXK 0xE x kk := by
  unfold decodeFamilyE at h
  split at h <;> cases h
  all_goals
    rename_i e
    rw [encodeXK, e]
    rfl

theorem encode_of_decodeFamilyF {x : Reg} {kk : Byte} {i : Instr} (h : decodeFamilyF x kk.toNat = some i) :
    encode i = encodeXK 0xF x kk := by
  unfold decodeFamilyF at h
  split at h <;> cases h
  all_goals
    rename_i e
    rw [encodeXK, e]
    rfl

/-- R75: no bit of a word is lost by decoding it. The families stand together by the format of their words (R73). -/
theorem encode_of_decodeWord {op : Word} {i : Instr} (h : decodeWord op = some i) : encode i = op := by
  unfold decodeWord at h
  split at h
  case h_1 => exact encode_of_decodeFamily0 h
  case h_2 ht | h_3 ht | h_11 ht | h_12 ht => cases h; exact encodeA_of_fieldT ht
  case h_4 ht | h_5 ht | h_7 ht | h_8 ht | h_13 ht => cases h; exact encodeXK_of_fieldT ht
  case h_14 ht => cases h; exact encodeXYN_of_fieldT ht
  case h_6 ht | h_10 ht =>
    split at h <;> cases h
    case isTrue hn => exact (hn ▸ encodeXYN_of_fieldT ht :)
  case h_9 ht => exact (encode_of_decodeFamily8 h).trans (encodeXYN_of_fieldT ht)
  case h_15 ht => exact (encode_of_decodeFamilyE h).trans (encodeXK_of_fieldT ht)
  case h_16 =>
    have ht : fieldT op = 0xF := by
      have := op.isLt
      simp only [fieldT, imp_false] at *
      omega
    exact (encode_of_decodeFamilyF h).trans (encodeXK_of_fieldT ht)

/-! ### Every instruction is of a row of the opcode map -/

open Laws.EncodesItsRow in
/-- R75, R76: the map has the row of every instruction, and the row admits the instruction's word. -/
theorem encodesItsRow : ∀ i : Instr, Statement i
  | .cls => cls | .ret => ret | .jpNnn nnn => jpNnn nnn | .callNnn nnn => callNnn nnn
  | .seVxKk x kk => seVxKk x kk | .sneVxKk x kk => sneVxKk x kk | .seVxVy x y => seVxVy x y
  | .sneVxVy x y => sneVxVy x y | .ldVxKk x kk => ldVxKk x kk | .addVxKk x kk => addVxKk x kk
  | .ldVxVy x y => ldVxVy x y | .orVxVy x y => orVxVy x y | .andVxVy x y => andVxVy x y
  | .xorVxVy x y => xorVxVy x y | .addVxVy x y => addVxVy x y | .subVxVy x y => subVxVy x y
  | .shrVx x y => shrVx x y | .subnVxVy x y => subnVxVy x y | .shlVx x y => shlVx x y
  | .ldINnn nnn => ldINnn nnn | .jpV0Nnn nnn => jpV0Nnn nnn | .rndVxKk x kk => rndVxKk x kk
  | .drwVxVyN x y n => drwVxVyN x y n | .skpVx x => skpVx x | .sknpVx x => sknpVx x
  | .ldVxDt x => ldVxDt x | .ldVxK x => ldVxK x | .ldDtVx x => ldDtVx x | .ldStVx x => ldStVx x
  | .addIVx x => addIVx x | .ldFVx x => ldFVx x | .ldBVx x => ldBVx x | .ldMemVx x => ldMemVx x
  | .ldVxMem x => ldVxMem x

theorem Instr.row_mem_opcodeRows (i : Instr) : i.row ∈ opcodeRows := (encodesItsRow i).1

theorem Instr.row_admits_encode (i : Instr) : encode i &&& i.row.mask = i.row.value :=
  beq_iff_eq.1 (encodesItsRow i).2

/-- The map has no row without an instruction: the word of a row's fixed bits decodes to one. -/
theorem exists_row_eq : ∀ r ∈ opcodeRows, ∃ i : Instr, i.row = r := by
  have h : ∀ r ∈ opcodeRows, (decodeWord r.value).map Instr.row = some r := by decide
  intro r hr
  obtain ⟨i, -, e⟩ := Option.map_eq_some_iff.1 (h r hr)
  exact ⟨i, e⟩

/-! ### The decoder accepts every word that a row admits -/

theorem fieldT_of_and_F000 {op v : Word} (h : op &&& 0xF000#16 = v) : fieldT op = fieldT v := by
  have := op.isLt
  rw [← h, and_F000]
  simp only [fieldT, BitVec.toNat_ofNat]
  omega

theorem fields_of_and_F00F {op v : Word} (h : op &&& 0xF00F#16 = v) :
    fieldT op = fieldT v ∧ fieldN op = fieldN v := by
  have := op.isLt
  rw [← h, and_F00F]
  simp only [fieldT, fieldN, BitVec.toNat_ofNat, Fin.ext_iff, Fin.val_ofNat]
  omega

theorem fields_of_and_F0FF {op v : Word} (h : op &&& 0xF0FF#16 = v) :
    fieldT op = fieldT v ∧ fieldKk op = fieldKk v := by
  have := op.isLt
  rw [← h, and_F0FF]
  simp only [fieldT, fieldKk, BitVec.toNat_ofNat, ← BitVec.toNat_inj]
  omega

/-- The bits that a row fixes are the bits by which the decoder selects. -/
theorem decodeWord_of_row_admits (i : Instr) {op : Word} (h : op &&& i.row.mask = i.row.value) :
    ∃ j, decodeWord op = some j := by
  cases i with
  | cls | ret =>
    rw [show op = _ from (BitVec.and_allOnes (x := op)).symm.trans h]
    exact ⟨_, rfl⟩
  | jpNnn | callNnn | seVxKk | sneVxKk | ldVxKk | addVxKk | ldINnn | jpV0Nnn | rndVxKk | drwVxVyN =>
    dsimp only [Instr.row] at h
    rw [decodeWord, fieldT_of_and_F000 h]
    exact ⟨_, rfl⟩
  | seVxVy | sneVxVy | ldVxVy | orVxVy | andVxVy | xorVxVy | addVxVy | subVxVy | shrVx | subnVxVy | shlVx =>
    dsimp only [Instr.row] at h
    obtain ⟨ht, hn⟩ := fields_of_and_F00F h
    rw [decodeWord, ht, hn]
    exact ⟨_, rfl⟩
  | skpVx | sknpVx | ldVxDt | ldVxK | ldDtVx | ldStVx | addIVx | ldFVx | ldBVx | ldMemVx | ldVxMem =>
    dsimp only [Instr.row] at h
    obtain ⟨ht, hkk⟩ := fields_of_and_F0FF h
    rw [decodeWord, ht, hkk]
    exact ⟨_, rfl⟩

theorem decodeWord_row {op : Word} {i : Instr} (h : decodeWord op = some i) :
    i.row ∈ opcodeRows ∧ op &&& i.row.mask = i.row.value :=
  ⟨i.row_mem_opcodeRows, encode_of_decodeWord h ▸ i.row_admits_encode⟩

theorem decodeWord_eq_some_iff_row (op : Word) :
    (∃ i, decodeWord op = some i) ↔ ∃ r ∈ opcodeRows, op &&& r.mask = r.value := by
  constructor
  · rintro ⟨i, h⟩
    exact ⟨i.row, decodeWord_row h⟩
  · rintro ⟨r, hr, h⟩
    obtain ⟨i, rfl⟩ := exists_row_eq r hr
    exact decodeWord_of_row_admits i h

theorem decodeWord_eq_none_of_rows {op : Word} (h : ∀ r ∈ opcodeRows, op &&& r.mask ≠ r.value) :
    decodeWord op = none := by
  rw [Option.eq_none_iff_forall_ne_some]
  intro i hi
  obtain ⟨hr, ha⟩ := decodeWord_row hi
  exact h i.row hr ha

/-! ### The rows are disjoint -/

/-- Two rows that agree on the bits both fix are one row. -/
theorem opcodeRows_eq_of_agree : ∀ r ∈ opcodeRows, ∀ q ∈ opcodeRows,
    r.value &&& q.mask = q.value &&& r.mask → r = q := by decide

theorem opcodeRows_disjoint (op : Word) (r : OpcodeRow) (hr : r ∈ opcodeRows) (q : OpcodeRow) (hq : q ∈ opcodeRows)
    (ha : op &&& r.mask = r.value) (hb : op &&& q.mask = q.value) : r = q := by
  refine opcodeRows_eq_of_agree r hr q hq ?_
  calc r.value &&& q.mask = (op &&& r.mask) &&& q.mask := by rw [ha]
    _ = (op &&& q.mask) &&& r.mask := by ac_rfl
    _ = q.value &&& r.mask := by rw [hb]

/-! ### Words of family 0x0 -/

/-- R79: family 0x0 has no word but its two. -/
theorem decodeWord_eq_none_of_family0 {op : Word} (h : op.toNat < 0x1000) (hcls : op ≠ 0x00E0)
    (hret : op ≠ 0x00EE) :
    decodeWord op = none := by
  have ht : fieldT op = 0 := Nat.div_eq_of_lt h
  rw [decodeWord, ht]
  exact (if_neg hcls).trans (if_neg hret)

end Sys2Proof

namespace Sys2Proof.Machine

/-- R201: a fetched word that does not decode faults. -/
theorem step_eq_illegalOpcode {s : State} {op : Word} (hf : fetch s = .ok op) (hd : decodeWord op = none) :
    step s = .fault (.illegalOpcode s.pc op) := by
  simp only [step, hf, hd]

/-- Settles O3: a decoded word is its instruction's encoding, which the instruction's row admits; a word that a row
admits has the fields by which the decoder selects; rows that agree on the bits both fix are equal. -/
theorem decoderAgreesWithOpcodeRows : Obligations.DecoderAgreesWithOpcodeRows :=
  ⟨decodeWord_eq_some_iff_row, fun _ _ => decodeWord_row, opcodeRows_disjoint,
    fun _ _ hf h => step_eq_illegalOpcode hf (decodeWord_eq_none_of_rows h)⟩

/-- Settles O5: the decoder gives nothing for such a word, so the step faults. -/
theorem zeroFamilyWordsAreIllegal : Obligations.ZeroFamilyWordsAreIllegal :=
  fun _ _ hf h hcls hret => step_eq_illegalOpcode hf (decodeWord_eq_none_of_family0 h hcls hret)

end Sys2Proof.Machine

/-! ## The step cycle (R90) -/

namespace Sys2Proof.Machine

theorem wordAtPc_eq_ofNat (s : State) : s.wordAtPc =
    BitVec.ofNat 16 (0x100 * (s.readByte s.pc.toNat).toNat + (s.readByte (s.pc.toNat + 1)).toNat) := by
  rw [← toNat_wordAtPc, BitVec.ofNat_toNat, BitVec.setWidth_eq]

theorem step_eq_exec {s : State} {op : Word} {i : Instr} (hf : fetch s = .ok op) (hd : decodeWord op = some i) :
    step s = exec i s.advancePc := by
  simp only [step, hf, hd]

theorem step_eq_fault_of_fetch {s : State} {f : Fault} (hf : fetch s = .error f) : step s = .fault f := by
  simp only [step, hf]

/-- R207, R208: the pre-step state, and the report. -/
theorem applyEvent_step_of_fault {s : State} {f : Fault} (h : step s = .fault f) :
    applyEvent .step s = (s, .faultReport f) := by
  simp only [applyEvent, h, stateAfter, reportOf]

theorem applyEvent_step_of_next {s t : State} (h : step s = .next t) : applyEvent .step s = (t, .quiet) := by
  simp only [applyEvent, h, stateAfter, reportOf]

/-- Settles O6: the fetch gives the word at `pc`, on which the step goes by whether it decodes; above 0xFFE the
fetch's fault is the step's. -/
theorem stepRunsTheDecodedInstruction : Obligations.StepRunsTheDecodedInstruction := by
  refine fun s => ⟨?decodes, ?illegal, fun hpc => step_eq_fault_of_fetch (fetch_eq_error hpc),
    fun _ => applyEvent_step_of_fault, fun _ => applyEvent_step_of_next⟩
  case decodes =>
    intro hpc i hd
    rw [← wordAtPc_eq_ofNat] at hd
    exact step_eq_exec (fetch_eq_ok hpc) hd
  case illegal =>
    rintro hpc op rfl hd
    rw [← wordAtPc_eq_ofNat] at hd ⊢
    exact step_eq_illegalOpcode (fetch_eq_ok hpc) hd

end Sys2Proof.Machine

/-! ## Control flow (R100 to R107) -/

namespace Sys2Proof

/-! ### The words of an instruction decode to it -/

/-- R75, R76: the encoding puts every operand where the decoder reads it. The instructions stand together by the
format of their words (R73). -/
theorem decodeWord_encode (i : Instr) : decodeWord (encode i) = some i := by
  cases i with
  | cls | ret => rfl
  | jpNnn nnn | callNnn nnn | ldINnn nnn | jpV0Nnn nnn =>
    rw [encode, decodeWord, fieldT_encodeA _ _ (by decide), fieldNnn_encodeA _ _ (by decide)]
    rfl
  | seVxKk x kk | sneVxKk x kk | ldVxKk x kk | addVxKk x kk | rndVxKk x kk | skpVx x | sknpVx x | ldVxDt x | ldVxK x
  | ldDtVx x | ldStVx x | addIVx x | ldFVx x | ldBVx x | ldMemVx x | ldVxMem x =>
    rw [encode, decodeWord, fieldT_encodeXK _ _ _ (by decide), fieldX_encodeXK _ _ _ (by decide),
      fieldKk_encodeXK _ _ _ (by decide)]
    rfl
  | seVxVy x y | sneVxVy x y | ldVxVy x y | orVxVy x y | andVxVy x y | xorVxVy x y | addVxVy x y | subVxVy x y
  | shrVx x y | subnVxVy x y | shlVx x y | drwVxVyN x y n =>
    rw [encode, decodeWord, fieldT_encodeXYN _ _ _ _ (by decide), fieldX_encodeXYN _ _ _ _ (by decide),
      fieldY_encodeXYN _ _ _ _ (by decide), fieldN_encodeXYN _ _ _ _ (by decide)]
    rfl

theorem decodeWord_ofNat {i : Instr} {n : Nat} (h : (encode i).toNat = n) :
    decodeWord (BitVec.ofNat 16 n) = some i := by
  rw [← h, BitVec.ofNat_toNat, BitVec.setWidth_eq, decodeWord_encode]

/-- R78: families 0x5 and 0x9 have no word with another low nibble than 0. -/
theorem decodeWord_eq_none_of_fieldN {op : Word} (ht : fieldT op = 0x5 ∨ fieldT op = 0x9) (hn : fieldN op ≠ 0) :
    decodeWord op = none := by
  rcases ht with ht | ht <;> rw [decodeWord, ht] <;> exact if_neg hn

theorem decodeWord_lowNibble_eq_none (t : Nat) (x y : Reg) {n : Nat} (ht : t = 0x5 ∨ t = 0x9) (hn : 1 ≤ n)
    (hn' : n ≤ 0xF) :
    decodeWord (BitVec.ofNat 16 (t * 0x1000 + 0x100 * x.val + 0x10 * y.val + n)) = none := by
  apply decodeWord_eq_none_of_fieldN
  · simp only [fieldT, BitVec.toNat_ofNat]
    omega
  · simp only [fieldN, BitVec.toNat_ofNat, ne_eq, Fin.ext_iff, Fin.val_ofNat, Fin.val_zero]
    omega

end Sys2Proof

namespace Sys2Proof.Machine

/-! ### Frames -/

theorem setPc_changesOnly (s : State) (w : Word) : ChangesOnly [.programCounter] [] s (s.setPc w) := by
  refine ⟨fun p hp => ?_, fun r _ => s.getV_setPc w r⟩
  cases p with
  | programCounter => exact absurd List.mem_cons_self hp
  | callStack => exact ⟨rfl, rfl⟩
  | memory => exact fun _ => rfl
  | _ => rfl

theorem skipIf_changesOnly (s : State) (c : Bool) : ChangesOnly [.programCounter] [] s (s.skipIf c) := by
  cases c
  · exact setPc_changesOnly s s.pc
  · exact setPc_changesOnly s (s.pc + 2)

/-- The frame of RET and CALL: the stack and `SP` are set, then `pc`. -/
theorem setStack_setPc_changesOnly (s : State) (stack : Vector Word 16) (sp : Fin 17) (w : Word) :
    ChangesOnly [.programCounter, .callStack] [] s ({ s with stack := stack, sp := sp }.setPc w) := by
  refine ⟨fun p hp => ?_, fun _ _ => rfl⟩
  cases p with
  | programCounter | callStack => simp at hp
  | memory => exact fun _ => rfl
  | _ => rfl

/-! ### RET and CALL -/

/-- R10: the executing instruction knows the address it was fetched from. -/
theorem advancePc_pc_sub_two (s : State) : s.advancePc.pc - 2 = s.pc := by
  rw [s.advancePc_pc, BitVec.add_sub_cancel]

theorem exec_ret_of_pos {s : State} (h : 0 < s.sp.val) :
    exec .ret s = .next ({ s with sp := ⟨s.sp.val - 1, by omega⟩ }.setPc s.stack[s.sp.val - 1]) := by
  rcases s.pop?_cases with ⟨h0, -⟩ | ⟨_, e⟩
  · omega
  · simp only [exec, execRet, e]

theorem exec_ret_of_eq_zero {s : State} (h : s.sp.val = 0) : exec .ret s = .fault (.stackUnderflow (s.pc - 2)) := by
  rcases s.pop?_cases with ⟨-, e⟩ | ⟨hpos, -⟩
  · simp only [exec, execRet, e, raise, State.pc0]
  · omega

theorem exec_callNnn_of_lt {s : State} (nnn : Addr12) (h : s.sp.val < 16) :
    exec (.callNnn nnn) s = .next ({ s with
      stack := s.stack.set s.sp.val s.pc, sp := ⟨s.sp.val + 1, by omega⟩ }.setPc (addrWord nnn)) := by
  rcases s.push?_cases s.pc with ⟨h16, -⟩ | ⟨_, e⟩
  · omega
  · simp only [exec, execCallNnn, e]

theorem exec_callNnn_of_eq_16 {s : State} (nnn : Addr12) (h : s.sp.val = 16) :
    exec (.callNnn nnn) s = .fault (.stackOverflow (s.pc - 2)) := by
  rcases s.push?_cases s.pc with ⟨-, e⟩ | ⟨hlt, -⟩
  · simp only [exec, execCallNnn, e, raise, State.pc0]
  · omega

theorem toNat_addrWord (nnn : Addr12) : (addrWord nnn).toNat = nnn.toNat :=
  BitVec.toNat_setWidth_of_le (by decide)

/-- Settles O14: RET by whether an entry is in use; the step event discards the advance that the fault followed. -/
theorem returnPopsTheNewestEntry : Obligations.ReturnPopsTheNewestEntry := by
  refine ⟨decodeWord_encode .ret, fun s h => ?completes, fun _ => exec_ret_of_eq_zero, fun s h hf => ?faults⟩
  case completes =>
    exact ⟨_, exec_ret_of_pos h, rfl, rfl, rfl, setStack_setPc_changesOnly s s.stack _ _⟩
  case faults =>
    apply applyEvent_step_of_fault
    rw [step_eq_exec hf (decodeWord_encode .ret), exec_ret_of_eq_zero (s := s.advancePc) h, advancePc_pc_sub_two]

/-- Settles O15: CALL by whether an entry is free; the step event discards the advance that the fault followed. -/
theorem callPushesTheReturnAddress : Obligations.CallPushesTheReturnAddress := by
  refine ⟨fun nnn => decodeWord_encode (.callNnn nnn), fun s nnn h => ?completes,
    fun _ nnn => exec_callNnn_of_eq_16 nnn, fun s nnn h hf => ?faults⟩
  case completes =>
    exact ⟨_, exec_callNnn_of_lt nnn h, toNat_addrWord nnn, rfl, Vector.getElem_set_self _,
      fun j hj => Vector.getElem_set_ne h _ hj.symm, setStack_setPc_changesOnly s _ _ _⟩
  case faults =>
    apply applyEvent_step_of_fault
    rw [step_eq_exec hf (decodeWord_encode (.callNnn nnn)), exec_callNnn_of_eq_16 (s := s.advancePc) nnn h,
      advancePc_pc_sub_two]

/-! ### JP and JP V0 -/

/-- R107: 16 bits hold the sum, so it is not reduced. -/
theorem toNat_addrWord_add_byteWord (nnn : Addr12) (b : Byte) :
    (addrWord nnn + byteWord b).toNat = nnn.toNat + b.toNat := by
  have hb : (byteWord b).toNat = b.toNat := BitVec.toNat_setWidth_of_le (by decide)
  have := nnn.isLt
  have := b.isLt
  rw [BitVec.toNat_add, toNat_addrWord, hb]
  omega

/-- Settles O16: both set `pc` and nothing else, to a value that 16 bits hold unreduced. -/
theorem jumpsSetThePc : Obligations.JumpsSetThePc :=
  ⟨fun nnn => decodeWord_encode (.jpNnn nnn), fun nnn => decodeWord_encode (.jpV0Nnn nnn),
    fun s nnn => ⟨_, rfl, toNat_addrWord nnn, setPc_changesOnly s _⟩,
    fun s nnn => ⟨_, rfl, toNat_addrWord_add_byteWord nnn (s.getV 0), setPc_changesOnly s _⟩⟩

/-! ### The register skips -/

theorem skipIf_beq_pc (s : State) (a b : Byte) : (s.skipIf (a == b)).pc = if a = b then s.pc + 2 else s.pc := by
  simp only [s.skipIf_pc, beq_iff_eq]

theorem skipIf_bne_pc (s : State) (a b : Byte) : (s.skipIf (a != b)).pc = if a = b then s.pc else s.pc + 2 := by
  simp only [s.skipIf_pc, bne_iff_ne, ite_not]

/-- Settles O17: the skip's `pc` by its condition, and its frame. -/
theorem skipsOnImmediate : Obligations.SkipsOnImmediate := by
  refine ⟨fun x kk => ⟨decodeWord_ofNat ?se, decodeWord_ofNat ?sne⟩,
    fun s x kk => ⟨_, rfl, skipIf_beq_pc s _ _, skipIf_changesOnly s _⟩,
    fun s x kk => ⟨_, rfl, skipIf_bne_pc s _ _, skipIf_changesOnly s _⟩⟩
  case se | sne =>
    rw [encode, toNat_encodeXK _ _ _ (by decide)]
    omega

/-- Settles O18: as for the immediates, and a word of their families with another low nibble decodes to nothing. -/
theorem skipsOnRegister : Obligations.SkipsOnRegister := by
  refine ⟨fun x y => ⟨decodeWord_ofNat ?se, decodeWord_ofNat ?sne⟩,
    fun x y _ hn hn' => ⟨decodeWord_lowNibble_eq_none 0x5 x y (.inl rfl) hn hn',
      decodeWord_lowNibble_eq_none 0x9 x y (.inr rfl) hn hn'⟩,
    fun s x y => ⟨_, rfl, skipIf_beq_pc s _ _, skipIf_changesOnly s _⟩,
    fun s x y => ⟨_, rfl, skipIf_bne_pc s _ _, skipIf_changesOnly s _⟩⟩
  case se | sne =>
    rw [encode, toNat_encodeXYN _ _ _ _ (by decide)]
    omega

end Sys2Proof.Machine

/-! ## Registers, arithmetic and logic (R120 to R134) -/

namespace Sys2Proof.Machine

/-! ### Frames: reflexive, transitive, and one for each update -/

theorem ChangesOnly.refl (parts : List Part) (regs : List Reg) (s : State) : ChangesOnly parts regs s s := by
  refine ⟨fun p _ => ?_, fun _ _ => rfl⟩
  cases p with
  | callStack => exact ⟨rfl, rfl⟩
  | memory => exact fun _ => rfl
  | _ => rfl

theorem SamePart.trans {s t u : State} {p : Part} (h : SamePart s t p) (h' : SamePart t u p) : SamePart s u p := by
  cases p with
  | callStack => exact ⟨h'.1.trans h.1, h'.2.trans h.2⟩
  | memory => exact fun a => (h' a).trans (h a)
  | _ => exact Eq.trans h' h

theorem ChangesOnly.trans {parts parts' : List Part} {regs regs' : List Reg} {s t u : State}
    (h : ChangesOnly parts regs s t) (h' : ChangesOnly parts' regs' t u) :
    ChangesOnly (parts ++ parts') (regs ++ regs') s u := by
  obtain ⟨hp, hr⟩ := h
  obtain ⟨hp', hr'⟩ := h'
  simp only [ChangesOnly, List.mem_append, not_or]
  exact ⟨fun p hn => (hp p hn.1).trans (hp' p hn.2), fun r hn => (hr' r hn.2).trans (hr r hn.1)⟩

theorem ChangesOnly.of_regs_subset {parts : List Part} {regs regs' : List Reg} {s t : State}
    (h : ChangesOnly parts regs s t) (hsub : regs ⊆ regs') : ChangesOnly parts regs' s t :=
  ⟨h.1, fun r hn => h.2 r fun hr => hn (hsub hr)⟩

theorem setV_changesOnly (s : State) (x : Reg) (b : Byte) : ChangesOnly [] [x] s (s.setV x b) :=
  ⟨fun p _ => by cases p <;> simp [SamePart, State.readByte],
    fun r hr => s.getV_setV_ne x r b (List.ne_of_not_mem_cons hr)⟩

theorem consumeDraw_changesOnly (s : State) : ChangesOnly [.drawCount] [] s s.consumeDraw :=
  ⟨fun p hp => by cases p <;> simp_all [SamePart, State.readByte], fun _ _ => rfl⟩

theorem setI_changesOnly (s : State) (w : Word) : ChangesOnly [.indexReg] [] s (s.setI w) :=
  ⟨fun p hp => by cases p <;> simp_all [SamePart, State.readByte], fun _ _ => rfl⟩

theorem setDt_changesOnly (s : State) (b : Byte) : ChangesOnly [.delayTimer] [] s (s.setDt b) :=
  ⟨fun p hp => by cases p <;> simp_all [SamePart, State.readByte], fun _ _ => rfl⟩

theorem setSt_changesOnly (s : State) (b : Byte) : ChangesOnly [.soundTimer] [] s (s.setSt b) :=
  ⟨fun p hp => by cases p <;> simp_all [SamePart, State.readByte], fun _ _ => rfl⟩

theorem setFb_changesOnly (s : State) (fb : Framebuffer) : ChangesOnly [.framebuffer] [] s (s.setFb fb) :=
  ⟨fun p hp => by cases p <;> simp_all [SamePart, State.readByte], fun _ _ => rfl⟩

theorem storeBytes_changesOnly (s : State) (a : Nat) (bs : List Byte) :
    ChangesOnly [.memory] [] s (s.storeBytes a bs) :=
  ⟨fun p hp => by cases p <;> simp_all [SamePart], fun _ _ => rfl⟩

/-- R155: the registers that a block of `x + 1` bytes reaches. -/
theorem setBlock_changesOnly (s : State) (x : Reg) (bs : List Byte) (h : bs.length = blockSize x) :
    ChangesOnly [] ((List.finRange 16).filter fun r => decide (r.val ≤ x.val)) s (s.setBlock bs) := by
  refine ⟨fun p _ => by cases p <;> simp [SamePart, State.readByte], fun r hr => ?_⟩
  have hlt : ¬r.val < bs.length := by
    simp only [List.mem_filter, List.mem_finRange, true_and, decide_eq_true_eq] at hr
    rw [h, blockSize]
    omega
  simp only [State.getV_setBlock, hlt, ↓reduceDIte]

/-! ### The frame of every instruction, by the access table (R33, R94) -/

theorem execRet_changesOnly (s : State) :
    ChangesOnly [.programCounter, .callStack] [] s (stateAfter s (execRet s)) := by
  rcases s.pop?_cases with ⟨-, e⟩ | ⟨_, e⟩ <;> simp only [execRet, e]
  · exact .refl _ _ s
  · exact setStack_setPc_changesOnly s s.stack _ _

theorem execCallNnn_changesOnly (nnn : Addr12) (s : State) :
    ChangesOnly [.programCounter, .callStack] [] s (stateAfter s (execCallNnn nnn s)) := by
  rcases s.push?_cases s.pc with ⟨-, e⟩ | ⟨_, e⟩ <;> simp only [execCallNnn, e]
  · exact .refl _ _ s
  · exact setStack_setPc_changesOnly s _ _ _

theorem getV_setV_setV_of_ne (s : State) {x r : Reg} (b c : Byte) (h : x ≠ r) :
    ((s.setV x b).setV r c).getV x = b := by
  rw [State.getV_setV_ne _ _ _ _ h, State.getV_setV_same]

theorem setV_setV_vf_changesOnly (s : State) (x : Reg) (res flag : Byte) :
    ChangesOnly [] [x, vf] s ((s.setV x res).setV vf flag) :=
  (setV_changesOnly s x res).trans (setV_changesOnly _ vf flag)

theorem setV_vf_setV_changesOnly (s : State) (x : Reg) (res flag : Byte) :
    ChangesOnly [] [x, vf] s ((s.setV vf flag).setV x res) :=
  ((setV_changesOnly s vf flag).trans (setV_changesOnly _ x res)).of_regs_subset (List.Perm.swap x vf []).subset

theorem writeAlu_changesOnly (i : Instr) (isAlias : Bool) (x y : Reg) (f : Byte → Byte → Byte) (flag : Bool)
    (s : State) : ChangesOnly [] [x, vf] s (stateAfter s (writeAlu i isAlias x y f flag s)) := by
  rcases writeAlu_cases i isAlias x y f flag s with ⟨-, -, e⟩ | ⟨-, e⟩ | ⟨-, -, e⟩ | ⟨-, -, e⟩ <;> rw [e]
  · exact .refl _ _ s
  · exact setV_setV_vf_changesOnly s x _ _
  · exact setV_vf_setV_changesOnly s x _ _
  · exact setV_vf_setV_changesOnly s x _ _

theorem execDrwVxVyN_changesOnly (x y : Reg) (n : Fin 16) (s : State) :
    ChangesOnly [.framebuffer] [vf] s (stateAfter s (execDrwVxVyN x y n s)) := by
  rcases firstInvalid?_cases s.dataAddr n.val with ⟨e, -⟩ | ⟨e, -⟩ <;> simp only [execDrwVxVyN, e]
  · exact (setFb_changesOnly s _).trans (setV_changesOnly _ vf _)
  · exact .refl _ _ s

theorem execLdBVx_changesOnly (x : Reg) (s : State) : ChangesOnly [.memory] [] s (stateAfter s (execLdBVx x s)) := by
  rcases firstInvalid?_cases s.dataAddr 3 with ⟨e, -⟩ | ⟨e, -⟩ <;> simp only [execLdBVx, e]
  · exact storeBytes_changesOnly s _ _
  · exact .refl _ _ s

theorem execLdMemVx_changesOnly (x : Reg) (s : State) :
    ChangesOnly [.memory] [] s (stateAfter s (execLdMemVx x s)) := by
  rcases firstInvalid?_cases s.dataAddr (blockSize x) with ⟨e, -⟩ | ⟨e, -⟩ <;> simp only [execLdMemVx, e]
  · exact storeBytes_changesOnly s _ _
  · exact .refl _ _ s

theorem execLdVxMem_changesOnly (x : Reg) (s : State) :
    ChangesOnly [] ((List.finRange 16).filter fun r => decide (r.val ≤ x.val)) s
      (stateAfter s (execLdVxMem x s)) := by
  rcases firstInvalid?_cases s.dataAddr (blockSize x) with ⟨e, -⟩ | ⟨e, -⟩ <;> simp only [execLdVxMem, e]
  · exact setBlock_changesOnly s x _ (Memory.length_readBytes ..)
  · exact .refl _ _ s

theorem execSkpVx_changesOnly (x : Reg) (s : State) :
    ChangesOnly [.programCounter] [] s (stateAfter s (execSkpVx x s)) := by
  rcases keyIndex?_cases (s.getV x) with ⟨-, e⟩ | ⟨_, e⟩ <;> simp only [execSkpVx, e]
  · exact .refl _ _ s
  · exact skipIf_changesOnly s _

theorem execSknpVx_changesOnly (x : Reg) (s : State) :
    ChangesOnly [.programCounter] [] s (stateAfter s (execSknpVx x s)) := by
  rcases keyIndex?_cases (s.getV x) with ⟨-, e⟩ | ⟨_, e⟩ <;> simp only [execSknpVx, e]
  · exact .refl _ _ s
  · exact skipIf_changesOnly s _

theorem execLdVxK_changesOnly (x : Reg) (s : State) :
    ChangesOnly [.programCounter] [x] s (stateAfter s (execLdVxK x s)) := by
  rcases s.lowestKey?_cases with ⟨e, -⟩ | ⟨_, e, -⟩ <;> simp only [execLdVxK, e]
  · exact (setPc_changesOnly s _).of_regs_subset (List.nil_subset _)
  · exact (ChangesOnly.refl [.programCounter] [] s).trans (setV_changesOnly s x _)

/-- A fault changes nothing, so this holds of every outcome. -/
theorem exec_changesOnly (i : Instr) (s : State) :
    ChangesOnly (writtenParts i) (writtenRegs i) s (stateAfter s (exec i s)) := by
  cases i with
  | cls => exact setFb_changesOnly s _
  | ret => exact execRet_changesOnly s
  | jpNnn | jpV0Nnn => exact setPc_changesOnly s _
  | callNnn nnn => exact execCallNnn_changesOnly nnn s
  | seVxKk | sneVxKk | seVxVy | sneVxVy => exact skipIf_changesOnly s _
  | ldVxKk x | addVxKk x | ldVxVy x | orVxVy x | andVxVy x | xorVxVy x | ldVxDt x => exact setV_changesOnly s x _
  | addVxVy | subVxVy | subnVxVy => exact writeAlu_changesOnly ..
  | shrVx x => exact writeAlu_changesOnly _ _ x x (fun a _ => shrRes a) _ s
  | shlVx x => exact writeAlu_changesOnly _ _ x x (fun a _ => shlRes a) _ s
  | ldINnn | addIVx | ldFVx => exact setI_changesOnly s _
  | rndVxKk x => exact (setV_changesOnly s x _).trans (consumeDraw_changesOnly _)
  | drwVxVyN x y n => exact execDrwVxVyN_changesOnly x y n s
  | skpVx x => exact execSkpVx_changesOnly x s
  | sknpVx x => exact execSknpVx_changesOnly x s
  | ldVxK x => exact execLdVxK_changesOnly x s
  | ldDtVx => exact setDt_changesOnly s _
  | ldStVx => exact setSt_changesOnly s _
  | ldBVx x => exact execLdBVx_changesOnly x s
  | ldMemVx x => exact execLdMemVx_changesOnly x s
  | ldVxMem x => exact execLdVxMem_changesOnly x s

theorem exec_next_changesOnly {i : Instr} {s t : State} (h : exec i s = .next t) :
    ChangesOnly (writtenParts i) (writtenRegs i) s t := by
  have := exec_changesOnly i s
  rwa [h] at this

/-! ### Results and flags as the rules' numbers -/

/-- R127. -/
theorem addRes_eq : addRes = fun p q => BitVec.ofNat 8 (p.toNat + q.toNat) := by
  funext p q
  simp [addRes, BitVec.ofNat_add]

/-- R128. -/
theorem subRes_eq : subRes = fun p q => BitVec.ofNat 8 (256 + p.toNat - q.toNat) := by
  funext p q
  simp only [subRes]
  bv_omega

/-- R130: SUBN is SUB with the operands exchanged. -/
theorem subnRes_eq : subnRes = fun p q => BitVec.ofNat 8 (256 + q.toNat - p.toNat) := by
  funext p q
  exact congrFun (congrFun subRes_eq q) p

/-- R129. -/
theorem shrRes_eq (p : Byte) : shrRes p = BitVec.ofNat 8 (p.toNat / 2) := by
  simp only [shrRes]
  bv_omega

/-- R131. -/
theorem shlRes_eq (p : Byte) : shlRes p = BitVec.ofNat 8 (2 * p.toNat) := by
  simp only [shlRes]
  bv_omega

theorem flagByte_decide (P : Prop) [Decidable P] : flagByte (decide P) = if P then 1 else 0 := by
  simp only [flagByte, decide_eq_true_eq]

/-- A flag that is bit `k` of a byte. -/
theorem flagByte_getLsbD (a : Byte) (k : Nat) : flagByte (a.getLsbD k) = BitVec.ofNat 8 (a.toNat / 2 ^ k % 2) := by
  have h (b : Bool) : flagByte b = BitVec.ofNat 8 b.toNat := by cases b <;> rfl
  rw [h, BitVec.getLsbD, Nat.toNat_testBit]

theorem flagByte_shrFlag (a : Byte) : flagByte (shrFlag a) = BitVec.ofNat 8 (a.toNat % 2) := by
  rw [shrFlag, flagByte_getLsbD, Nat.pow_zero, Nat.div_one]

/-- R131, D5: bit 7 is all that is left above seven bits. -/
theorem flagByte_shlFlag (a : Byte) : flagByte (shlFlag a) = BitVec.ofNat 8 (a.toNat / 128) := by
  have h : a.toNat / 2 ^ 7 % 2 = a.toNat / 128 := by omega
  rw [shlFlag, flagByte_getLsbD, h]

/-! ### What a flag-writing ALU instruction does under each policy (R126, R132) -/

theorem aliasesX_iff (x : Reg) : aliasesX x = true ↔ x = vf := by
  rw [aliasesX, beq_iff_eq]

theorem aliasesXY_iff (x y : Reg) : aliasesXY x y = true ↔ x = vf ∨ y = vf := by
  rw [aliasesXY, Bool.or_eq_true, beq_iff_eq, beq_iff_eq]

section
variable {s : State} {i : Instr} {x y : Reg} {f : Byte → Byte → Byte} {flag : Byte}

/-- Each of the five is one call of `writeAlu` with the result and flag of its rule. A shift's result does not depend
on its second argument, so its unused field `y` may stand there. -/
theorem FlagAlu.exec_eq (h : FlagAlu s i x y f flag) : ∃ isAlias b, (isAlias = true ↔ VfIsOperand i) ∧
    flagByte b = flag ∧ exec i s = writeAlu i isAlias x y f b s := by
  rcases h with ⟨rfl, rfl, rfl⟩ | ⟨rfl, rfl, rfl⟩ | ⟨rfl, rfl, rfl⟩ | ⟨rfl, rfl, rfl⟩ | ⟨rfl, rfl, rfl⟩
  · exact ⟨_, _, aliasesXY_iff x y, flagByte_decide _, by rw [← addRes_eq]; rfl⟩
  · exact ⟨_, _, aliasesXY_iff x y, flagByte_decide _, by rw [← subRes_eq]; rfl⟩
  · exact ⟨_, _, aliasesXY_iff x y, flagByte_decide _, by rw [← subnRes_eq]; rfl⟩
  · exact ⟨_, _, aliasesX_iff x, flagByte_shrFlag _, by simp only [← shrRes_eq]; rfl⟩
  · exact ⟨_, _, aliasesX_iff x, flagByte_shlFlag _, by simp only [← shlRes_eq]; rfl⟩

theorem FlagAlu.exec_of_refuse {op : Word} (h : FlagAlu s i x y f flag) (hv : VfIsOperand i)
    (hp : s.aliasPolicy = .refuse) (hop : encode i = op) : exec i s = .fault (.unspecifiedAlias (s.pc - 2) op) := by
  obtain ⟨isAlias, b, hia, rfl, e⟩ := h.exec_eq
  rw [e, hia.2 hv, ← hop]
  simp only [writeAlu, hp, ↓reduceIte, raise, State.pc0]

/-- Where VF is no operand every policy writes in this order (R126). -/
theorem FlagAlu.exec_of_flagLast (h : FlagAlu s i x y f flag) (hp : ¬VfIsOperand i ∨ s.aliasPolicy = .flagLast) :
    exec i s = .next ((s.setV x (f (s.getV x) (s.getV y))).setV vf flag) := by
  obtain ⟨isAlias, b, hia, rfl, e⟩ := h.exec_eq
  rw [← hia, Bool.not_eq_true] at hp
  rw [e]
  rcases hp with rfl | hp
  · rfl
  · cases isAlias <;> simp only [writeAlu, hp] <;> rfl

theorem FlagAlu.exec_of_resultLast (h : FlagAlu s i x y f flag) (hv : VfIsOperand i)
    (hp : s.aliasPolicy = .resultLast) :
    exec i s = .next ((s.setV vf flag).setV x (f (s.getV x) (s.getV y))) := by
  obtain ⟨isAlias, b, hia, rfl, e⟩ := h.exec_eq
  rw [e, hia.2 hv]
  simp only [writeAlu, hp, ↓reduceIte, State.writeResultLast]

theorem FlagAlu.exec_of_sequential (h : FlagAlu s i x y f flag) (hv : VfIsOperand i)
    (hp : s.aliasPolicy = .sequential) :
    exec i s = .next ((s.setV vf flag).setV x (f ((s.setV vf flag).getV x) ((s.setV vf flag).getV y))) := by
  obtain ⟨isAlias, b, hia, rfl, e⟩ := h.exec_eq
  rw [e, hia.2 hv]
  simp only [writeAlu, hp, ↓reduceIte, State.writeSequential]

theorem FlagAlu.ne_vf (h : FlagAlu s i x y f flag) (hn : ¬VfIsOperand i) : x ≠ vf := by
  rintro rfl
  rcases h with ⟨rfl, -⟩ | ⟨rfl, -⟩ | ⟨rfl, -⟩ | ⟨rfl, -⟩ | ⟨rfl, -⟩ <;> simp [VfIsOperand] at hn

/-- R127 to R131, where VF is no operand. -/
theorem FlagAlu.completes (h : FlagAlu s i x y f flag) (hn : ¬VfIsOperand i) : ∃ t, exec i s = .next t ∧
    t.getV x = f (s.getV x) (s.getV y) ∧ t.getV vf = flag ∧ ChangesOnly [] [x, vf] s t :=
  ⟨_, h.exec_of_flagLast (.inl hn), getV_setV_setV_of_ne s _ _ (h.ne_vf hn), State.getV_setV_same ..,
    setV_setV_vf_changesOnly s x _ _⟩

theorem FlagAlu.completes_toNat {g : Byte → Byte → Nat} (h : FlagAlu s i x y (fun p q => .ofNat 8 (g p q)) flag)
    (hn : ¬VfIsOperand i) : ∃ t, exec i s = .next t ∧ (t.getV x).toNat = g (s.getV x) (s.getV y) % 256 ∧
    t.getV vf = flag ∧ ChangesOnly [] [x, vf] s t := by
  obtain ⟨t, e, hres, hrest⟩ := h.completes hn
  exact ⟨t, e, by rw [hres, BitVec.toNat_ofNat], hrest⟩

/-- R206: the step event discards the advance that the fault followed. -/
theorem FlagAlu.applyEvent_step_of_refuse {op : Word} (h : FlagAlu s i x y f flag) (hv : VfIsOperand i)
    (hp : s.aliasPolicy = .refuse) (hd : decodeWord op = some i) (hf : fetch s = .ok op) :
    applyEvent .step s = (s, .faultReport (.unspecifiedAlias s.pc op)) := by
  apply applyEvent_step_of_fault
  rw [step_eq_exec hf hd, exec_of_refuse (s := s.advancePc) h hv hp (encode_of_decodeWord hd), advancePc_pc_sub_two]

end

/-- Settles O25: each policy by the two writes it makes, of which the second stands where `x` is VF; where VF is no
operand every policy writes as `flag_last` does. -/
theorem aliasPolicyDecidesTheWrites : Obligations.AliasPolicyDecidesTheWrites := by
  refine ⟨fun s i x y f flag ⟨h, hv⟩ => ⟨fun hp op hd => ?refuse, fun hp => ?flagLast, fun hp => ?resultLast,
    fun hp => ?sequential⟩, fun s i x y f flag p h hn => ?noAlias⟩
  case refuse => exact ⟨h.exec_of_refuse hv hp (encode_of_decodeWord hd), h.applyEvent_step_of_refuse hv hp hd⟩
  case flagLast =>
    exact ⟨_, h.exec_of_flagLast (.inr hp), State.getV_setV_same .., fun hx => getV_setV_setV_of_ne s _ _ hx,
      setV_setV_vf_changesOnly s x _ _⟩
  case resultLast =>
    exact ⟨_, h.exec_of_resultLast hv hp, State.getV_setV_same .., fun hx => getV_setV_setV_of_ne s _ _ hx.symm,
      setV_vf_setV_changesOnly s x _ _⟩
  case sequential =>
    refine ⟨_, h.exec_of_sequential hv hp, ?_, fun hx => getV_setV_setV_of_ne s _ _ hx.symm,
      setV_vf_setV_changesOnly s x _ _⟩
    rw [State.getV_setV_same, State.getV_setV, State.getV_setV]
  case noAlias =>
    exact ⟨_, h.exec_of_flagLast (.inl hn), getV_setV_setV_of_ne s _ _ (h.ne_vf hn), State.getV_setV_same ..,
      setV_setV_vf_changesOnly s x _ _,
      FlagAlu.exec_of_flagLast (s := { s with aliasPolicy := p }) h (.inl hn)⟩

/-! ### The words of the family as the rules number them (R76) -/

theorem encodeXK_eq_ofNat (t : Nat) (x : Reg) (kk : Byte) :
    encodeXK t x kk = BitVec.ofNat 16 (t * 0x1000 + 0x100 * x.val + kk.toNat) :=
  congrArg (BitVec.ofNat 16) (by omega)

/-- The low nibble stands with the family, in the number of the row. -/
theorem encodeXYN_eq_ofNat (t : Nat) (x y : Reg) (n : Fin 16) :
    encodeXYN t x y n = BitVec.ofNat 16 (t * 0x1000 + n.val + 0x100 * x.val + 0x10 * y.val) :=
  congrArg (BitVec.ofNat 16) (by omega)

theorem decodeWord_of_encode_eq {i : Instr} {op : Word} (h : encode i = op) : decodeWord op = some i :=
  h ▸ decodeWord_encode i

/-! ### RND (R133) -/

/-- Settles O27: RND by its two writes; every other instruction by its frame, which the draw count is in; a fault by
the pre-step state. -/
theorem randomStoresTheMaskedDraw : Obligations.RandomStoresTheMaskedDraw := by
  refine ⟨fun x kk => decodeWord_of_encode_eq (encodeXK_eq_ofNat 0xC x kk), fun s x kk => ?rnd,
    fun i s t h hi => ?other, fun s f h => ?fault⟩
  case rnd =>
    have hx : ((s.setV x (s.nextDraw &&& kk)).consumeDraw).getV x = s.nextDraw &&& kk := by simp
    refine ⟨_, rfl, hx, ?_, fun k hk => ?_, rfl, exec_changesOnly (.rndVxKk x kk) s⟩
    · rw [hx, BitVec.toNat_and]
      exact Nat.and_le_right
    · rw [hx, BitVec.getLsbD_and, hk, Bool.and_false]
  case other =>
    refine (exec_next_changesOnly h).1 .drawCount ?_
    cases i with
    | rndVxKk x kk => exact absurd rfl (hi x kk)
    | _ => simp [writtenParts]
  case fault => rw [applyEvent_step_of_fault h]

/-! ### Immediates, copy and logic (R120 to R125) -/

/-- Settles O19: both set `Vx` and nothing else. -/
theorem immediateLoadAndAdd : Obligations.ImmediateLoadAndAdd := by
  refine ⟨fun x kk => ⟨decodeWord_of_encode_eq (encodeXK_eq_ofNat 0x6 x kk),
      decodeWord_of_encode_eq (encodeXK_eq_ofNat 0x7 x kk)⟩,
    fun s x kk => ⟨_, rfl, s.getV_setV_same x kk, setV_changesOnly s x kk⟩,
    fun s x kk => ⟨_, rfl, ?_, setV_changesOnly s x _⟩⟩
  rw [s.getV_setV_same, addRes, BitVec.toNat_add]

/-- Settles O20: each sets `Vx` and nothing else, to a value whose bits are those of the operands combined. -/
theorem registerCopyAndLogic : Obligations.RegisterCopyAndLogic := by
  refine ⟨fun x y => ⟨decodeWord_of_encode_eq (encodeXYN_eq_ofNat 0x8 x y 0x0),
      decodeWord_of_encode_eq (encodeXYN_eq_ofNat 0x8 x y 0x1),
      decodeWord_of_encode_eq (encodeXYN_eq_ofNat 0x8 x y 0x2),
      decodeWord_of_encode_eq (encodeXYN_eq_ofNat 0x8 x y 0x3)⟩,
    fun s x y => ⟨_, rfl, s.getV_setV_same x _, setV_changesOnly s x _⟩,
    fun s x y => ⟨_, rfl, fun k => ?or, setV_changesOnly s x _⟩,
    fun s x y => ⟨_, rfl, fun k => ?and, setV_changesOnly s x _⟩,
    fun s x y => ⟨_, rfl, fun k => ?xor, setV_changesOnly s x _⟩⟩
  case or => rw [s.getV_setV_same, BitVec.getLsbD_or]
  case and => rw [s.getV_setV_same, BitVec.getLsbD_and]
  case xor => rw [s.getV_setV_same, BitVec.getLsbD_xor]

/-! ### The flag-writing instructions under the default policy (R127 to R131) -/

theorem flagAlu_addVxVy (s : State) (x y : Reg) :
    FlagAlu s (.addVxVy x y) x y (fun p q => BitVec.ofNat 8 (p.toNat + q.toNat))
      (if (s.getV x).toNat + (s.getV y).toNat > 255 then 1 else 0) :=
  .inl ⟨rfl, rfl, rfl⟩

theorem flagAlu_subVxVy (s : State) (x y : Reg) :
    FlagAlu s (.subVxVy x y) x y (fun p q => BitVec.ofNat 8 (256 + p.toNat - q.toNat))
      (if (s.getV x).toNat > (s.getV y).toNat then 1 else 0) :=
  .inr (.inl ⟨rfl, rfl, rfl⟩)

theorem flagAlu_subnVxVy (s : State) (x y : Reg) :
    FlagAlu s (.subnVxVy x y) x y (fun p q => BitVec.ofNat 8 (256 + q.toNat - p.toNat))
      (if (s.getV y).toNat > (s.getV x).toNat then 1 else 0) :=
  .inr (.inr (.inl ⟨rfl, rfl, rfl⟩))

theorem flagAlu_shrVx (s : State) (x y : Reg) :
    FlagAlu s (.shrVx x y) x y (fun p _ => BitVec.ofNat 8 (p.toNat / 2)) (BitVec.ofNat 8 ((s.getV x).toNat % 2)) :=
  .inr (.inr (.inr (.inl ⟨rfl, rfl, rfl⟩)))

theorem flagAlu_shlVx (s : State) (x y : Reg) :
    FlagAlu s (.shlVx x y) x y (fun p _ => BitVec.ofNat 8 (2 * p.toNat)) (BitVec.ofNat 8 ((s.getV x).toNat / 128)) :=
  .inr (.inr (.inr (.inr ⟨rfl, rfl, rfl⟩)))

/-- Settles O21: ADD as one of the five flag-writing instructions, by whether VF is an operand. -/
theorem addSetsTheCarry : Obligations.AddSetsTheCarry :=
  ⟨fun x y => decodeWord_of_encode_eq (encodeXYN_eq_ofNat 0x8 x y 0x4),
    fun s x y hx hy => (flagAlu_addVxVy s x y).completes_toNat (not_or.2 ⟨hx, hy⟩),
    fun s x y hv hp => (flagAlu_addVxVy s x y).exec_of_refuse hv hp (encodeXYN_eq_ofNat 0x8 x y 0x4)⟩

/-- Settles O22: SUB as one of the five flag-writing instructions, by whether VF is an operand. -/
theorem subSetsTheFlagStrictly : Obligations.SubSetsTheFlagStrictly :=
  ⟨fun x y => decodeWord_of_encode_eq (encodeXYN_eq_ofNat 0x8 x y 0x5),
    fun s x y hx hy => (flagAlu_subVxVy s x y).completes_toNat (not_or.2 ⟨hx, hy⟩),
    fun s x y hv hp => (flagAlu_subVxVy s x y).exec_of_refuse hv hp (encodeXYN_eq_ofNat 0x8 x y 0x5)⟩

/-- Settles O23: SUBN as one of the five flag-writing instructions, by whether VF is an operand. -/
theorem subnSetsTheFlagStrictly : Obligations.SubnSetsTheFlagStrictly :=
  ⟨fun x y => decodeWord_of_encode_eq (encodeXYN_eq_ofNat 0x8 x y 0x7),
    fun s x y hx hy => (flagAlu_subnVxVy s x y).completes_toNat (not_or.2 ⟨hx, hy⟩),
    fun s x y hv hp => (flagAlu_subnVxVy s x y).exec_of_refuse hv hp (encodeXYN_eq_ofNat 0x8 x y 0x7)⟩

/-- Settles O24: SHR and SHL as two of the five flag-writing instructions, by whether VF is the destination; a byte
bounds its half and its high bit, which the widths therefore do not reduce. -/
theorem shiftsPutTheBitOutInVf : Obligations.ShiftsPutTheBitOutInVf := by
  refine ⟨fun x y => ⟨decodeWord_of_encode_eq (encodeXYN_eq_ofNat 0x8 x y 0x6),
      decodeWord_of_encode_eq (encodeXYN_eq_ofNat 0x8 x y 0xE)⟩, fun s x y hx => ?shr, fun s x y hx => ?shl,
    fun s y hp => ⟨(flagAlu_shrVx s vf y).exec_of_refuse rfl hp (encodeXYN_eq_ofNat 0x8 vf y 0x6),
      (flagAlu_shlVx s vf y).exec_of_refuse rfl hp (encodeXYN_eq_ofNat 0x8 vf y 0xE)⟩⟩
  case shr =>
    obtain ⟨t, e, hres, hflag, hframe⟩ := (flagAlu_shrVx s x y).completes_toNat hx
    refine ⟨t, e, by omega, ?_, hframe⟩
    rw [hflag, BitVec.toNat_ofNat]
    omega
  case shl =>
    obtain ⟨t, e, hres, hflag, hframe⟩ := (flagAlu_shlVx s x y).completes_toNat hx
    refine ⟨t, e, hres, ?_, hframe⟩
    rw [hflag, BitVec.toNat_ofNat]
    omega

end Sys2Proof.Machine

/-! ## Index register and memory (R150 to R155) -/

namespace Sys2Proof.Machine

/-! ### A byte of memory after a store (R53, R59) -/

theorem Memory.read_entry_append_ne {a c : Nat} (h : c ≠ a) (b : Byte) (m : Memory) :
    (Memory.entry a b ++ m).read c = m.read c := by
  unfold Memory.entry
  split
  · rfl
  · exact if_neg h.symm

/-- A byte that needs no entry reads back through the memory behind, which must not list its address. -/
theorem Memory.read_entry_append_same {a : Nat} {m : Memory} (b : Byte) (h : m.read a = Config.unlistedByte) :
    (Memory.entry a b ++ m).read a = b := by
  unfold Memory.entry
  split
  · next hb => exact h.trans hb.symm
  · exact if_pos rfl

/-- A memory whose addresses start at `lo` lists none below. -/
theorem Memory.read_of_wfFrom {lo a : Nat} {m : Memory} (hm : m.wfFrom lo = true) (h : a < lo) :
    m.read a = Config.unlistedByte := by
  induction m generalizing lo with
  | nil => rfl
  | cons c m ih =>
    obtain ⟨k, v⟩ := c
    simp only [Memory.wfFrom, Bool.and_eq_true, decide_eq_true_eq] at hm
    obtain ⟨⟨hlo, -⟩, hm⟩ := hm
    rw [Memory.read, if_neg (by omega), ih hm (by omega)]

/-- A write leaves every other address as it was, in a memory of any form. -/
theorem Memory.read_write_ne {a c : Nat} (h : c ≠ a) (b : Byte) (m : Memory) : (m.write a b).read c = m.read c := by
  induction m with
  | nil => simpa only [Memory.write, List.append_nil] using Memory.read_entry_append_ne h b []
  | cons d m ih =>
    obtain ⟨k, v⟩ := d
    simp only [Memory.write]
    split
    · exact Memory.read_entry_append_ne h b _
    · split
      · next hk => rw [Memory.read_entry_append_ne h, Memory.read, if_neg (hk ▸ h.symm)]
      · rw [Memory.read, Memory.read, ih]

/-- In a canonical memory no entry behind the place of the write shadows it. -/
theorem Memory.read_write_same_of_wfFrom {lo : Nat} {m : Memory} (hm : m.wfFrom lo = true) (a : Nat) (b : Byte) :
    (m.write a b).read a = b := by
  induction m generalizing lo with
  | nil => simpa only [Memory.write, List.append_nil] using Memory.read_entry_append_same (m := []) b rfl
  | cons d m ih =>
    obtain ⟨k, v⟩ := d
    simp only [Memory.wfFrom, Bool.and_eq_true, decide_eq_true_eq] at hm
    obtain ⟨-, hm⟩ := hm
    simp only [Memory.write]
    split
    · apply Memory.read_entry_append_same
      rw [Memory.read, if_neg (by omega), Memory.read_of_wfFrom hm (by omega)]
    · split
      · exact Memory.read_entry_append_same b (Memory.read_of_wfFrom hm (by omega))
      · next hne => rw [Memory.read, if_neg (Ne.symm hne), ih hm]

theorem Memory.read_write_same {m : Memory} (hm : m.wf = true) (a : Nat) (b : Byte) : (m.write a b).read a = b :=
  Memory.read_write_same_of_wfFrom hm a b

theorem Memory.read_writeBytes_outside {a c : Nat} {bs : List Byte} (h : c < a ∨ a + bs.length ≤ c) (m : Memory) :
    (m.writeBytes a bs).read c = m.read c := by
  induction bs generalizing m a with
  | nil => rfl
  | cons b bs ih =>
    rw [List.length_cons] at h
    rw [Memory.writeBytes, ih (by omega), Memory.read_write_ne (by omega)]

/-- The byte at offset `k` is the `k`th stored: the bytes stored after it lie above it. -/
theorem Memory.read_writeBytes_add {m : Memory} (hm : m.wf = true) (a : Nat) (bs : List Byte) (k : Nat)
    (hk : k < bs.length) : (m.writeBytes a bs).read (a + k) = bs[k] := by
  induction bs generalizing m a k with
  | nil => exact absurd hk (Nat.not_lt_zero k)
  | cons b bs ih =>
    rw [Memory.writeBytes]
    cases k with
    | zero => exact (Memory.read_writeBytes_outside (.inl a.lt_succ_self) _).trans (Memory.read_write_same hm a b)
    | succ k =>
      have hshift : a + (k + 1) = a + 1 + k := by omega
      rw [hshift, ih (Memory.wf_write m a b hm) (a + 1) k (Nat.lt_of_succ_lt_succ hk), List.getElem_cons_succ]

theorem State.readByte_storeBytes_outside (s : State) {a c : Nat} {bs : List Byte}
    (h : c < a ∨ a + bs.length ≤ c) : (s.storeBytes a bs).readByte c = s.readByte c :=
  Memory.read_writeBytes_outside h s.mem

theorem State.readByte_storeBytes_add {s : State} (hm : s.mem.wf = true) (a : Nat) (bs : List Byte) (k : Nat)
    (hk : k < bs.length) : (s.storeBytes a bs).readByte (a + k) = bs[k] :=
  Memory.read_writeBytes_add hm a bs k hk

theorem State.getElem_readBytes (s : State) (a n k : Nat) (h : k < (s.readBytes a n).length) :
    (s.readBytes a n)[k] = s.readByte (a + k) :=
  Memory.getElem_readBytes s.mem a n k h

/-! ### The range of an access of `k + 1` bytes (R51 to R54) -/

theorem firstInvalid?_succ_of_le {base k : Nat} (h : base + k ≤ 0xFFF) : firstInvalid? base (k + 1) = none :=
  firstInvalid?_eq_none.2 (.inr (by omega))

theorem firstInvalid?_succ_of_lt {base k : Nat} (h : 0xFFF < base + k) :
    firstInvalid? base (k + 1) = some (max base 0x1000) :=
  firstInvalid?_eq_some.2 ⟨⟨k.succ_ne_zero, by omega⟩, rfl⟩

/-! ### LD B, LD [I] and LD Vx, [I] by the range of their access -/

theorem exec_ldBVx_of_le {s : State} (x : Reg) (h : s.dataAddr + 2 ≤ 0xFFF) :
    exec (.ldBVx x) s = .next (s.storeBytes s.dataAddr (bcdDigits (s.getV x))) := by
  simp only [exec, execLdBVx, firstInvalid?_succ_of_le h]

theorem exec_ldBVx_of_lt {s : State} (x : Reg) (h : 0xFFF < s.dataAddr + 2) :
    exec (.ldBVx x) s = .fault (.addressOutOfRange (s.pc - 2) (max s.dataAddr 0x1000)) := by
  simp only [exec, execLdBVx, firstInvalid?_succ_of_lt h, raise, State.pc0]

theorem exec_ldMemVx_of_le {s : State} {x : Reg} (h : s.dataAddr + x.val ≤ 0xFFF) :
    exec (.ldMemVx x) s = .next (s.storeBytes s.dataAddr (s.block x)) := by
  simp only [exec, execLdMemVx, blockSize, firstInvalid?_succ_of_le h]

theorem exec_ldMemVx_of_lt {s : State} {x : Reg} (h : 0xFFF < s.dataAddr + x.val) :
    exec (.ldMemVx x) s = .fault (.addressOutOfRange (s.pc - 2) (max s.dataAddr 0x1000)) := by
  simp only [exec, execLdMemVx, blockSize, firstInvalid?_succ_of_lt h, raise, State.pc0]

theorem exec_ldVxMem_of_le {s : State} {x : Reg} (h : s.dataAddr + x.val ≤ 0xFFF) :
    exec (.ldVxMem x) s = .next (s.setBlock (s.readBytes s.dataAddr (blockSize x))) := by
  simp only [exec, execLdVxMem, blockSize, firstInvalid?_succ_of_le h]

theorem exec_ldVxMem_of_lt {s : State} {x : Reg} (h : 0xFFF < s.dataAddr + x.val) :
    exec (.ldVxMem x) s = .fault (.addressOutOfRange (s.pc - 2) (max s.dataAddr 0x1000)) := by
  simp only [exec, execLdVxMem, blockSize, firstInvalid?_succ_of_lt h, raise, State.pc0]

/-! ### What the instructions set and store, as the rules' numbers -/

/-- R76: the low byte stands with the family, in the number of the row. -/
theorem encodeXK_eq_ofNat_row (t : Nat) (x : Reg) (kk : Byte) :
    encodeXK t x kk = BitVec.ofNat 16 (t * 0x1000 + kk.toNat + 0x100 * x.val) :=
  congrArg (BitVec.ofNat 16) (by omega)

theorem toNat_byteWord (b : Byte) : (byteWord b).toNat = b.toNat :=
  BitVec.toNat_setWidth_of_le (by decide)

/-- R152: 16 bits hold the address of every byte's glyph, so it is not reduced. -/
theorem toNat_fontAddr (d : Byte) : (fontAddr d).toNat = 0x050 + 5 * d.toNat := by
  have := d.isLt
  simp only [fontAddr, BitVec.toNat_ofNat, Config.fontBase, Config.glyphBytes]
  omega

@[simp] theorem length_bcdDigits (v : Byte) : (bcdDigits v).length = 3 := rfl

/-- R153: a byte holds each of its own decimal digits. -/
theorem toNat_getElem_bcdDigits (v : Byte) : (bcdDigits v)[0].toNat = v.toNat / 100 ∧
    (bcdDigits v)[1].toNat = v.toNat / 10 % 10 ∧ (bcdDigits v)[2].toNat = v.toNat % 10 := by
  have := v.isLt
  simp only [bcdDigits, List.getElem_cons_zero, List.getElem_cons_succ, BitVec.toNat_ofNat]
  omega

/-! ### LD I, ADD I and LD F -/

/-- Settles O28: each sets `I` and nothing else, to a value that 16 bits hold, unreduced in LD I and LD F. -/
theorem indexRegisterInstructions : Obligations.IndexRegisterInstructions := by
  refine ⟨fun nnn => decodeWord_encode (.ldINnn nnn),
    fun x => ⟨decodeWord_of_encode_eq (encodeXK_eq_ofNat_row 0xF x 0x1E),
      decodeWord_of_encode_eq (encodeXK_eq_ofNat_row 0xF x 0x29)⟩,
    fun s nnn => ⟨_, rfl, toNat_addrWord nnn, setI_changesOnly s _⟩,
    fun s x => ⟨_, rfl, ?sum, setI_changesOnly s _⟩,
    fun s x => ⟨_, rfl, toNat_fontAddr (s.getV x), setI_changesOnly s _⟩⟩
  case sum => rw [State.setI_regI, BitVec.toNat_add, toNat_byteWord]

/-! ### LD B, LD [I] and LD Vx, [I] -/

/-- Settles O29: LD B by the range of its access; the three bytes it stores are the digits. -/
theorem bcdStoresThreeDigits : Obligations.BcdStoresThreeDigits := by
  refine ⟨fun x => decodeWord_of_encode_eq (encodeXK_eq_ofNat_row 0xF x 0x33), fun s x h => ?completes,
    fun _ x => exec_ldBVx_of_lt x, fun _ => rfl⟩
  case completes =>
    refine ⟨_, exec_ldBVx_of_le x h, fun hm => ?digits, fun a ha => ?outside, storeBytes_changesOnly s _ _⟩
    case digits =>
      have hread (k : Nat) (hk : k < 3) := State.readByte_storeBytes_add hm s.dataAddr (bcdDigits (s.getV x)) k hk
      have hdigits := toNat_getElem_bcdDigits (s.getV x)
      rwa [← hread 0 (by decide), ← hread 1 (by decide), ← hread 2 (by decide)] at hdigits
    case outside => exact s.readByte_storeBytes_outside ha

/-- Settles O30: LD [I], Vx by the range of its access; the byte at offset `r` of the block is `V[r]`. -/
theorem registerDumpStoresTheBlock : Obligations.RegisterDumpStoresTheBlock := by
  refine ⟨fun x => decodeWord_of_encode_eq (encodeXK_eq_ofNat_row 0xF x 0x55), fun s x h => ?completes,
    fun _ _ => exec_ldMemVx_of_lt, fun _ => rfl⟩
  case completes =>
    refine ⟨_, exec_ldMemVx_of_le h, fun hm r hr => ?block, fun a ha => ?outside, storeBytes_changesOnly s _ _⟩
    case block =>
      have hk : r.val < (s.block x).length := by rw [s.length_block]; omega
      rw [State.readByte_storeBytes_add hm _ _ _ hk, s.getElem_block x _ hk r.isLt]
    case outside =>
      apply s.readByte_storeBytes_outside
      rw [s.length_block]
      omega

/-- Settles O31: LD Vx, [I] by the range of its access; the block it reads reaches V0 to Vx. -/
theorem registerLoadReadsTheBlock : Obligations.RegisterLoadReadsTheBlock := by
  refine ⟨fun x => decodeWord_of_encode_eq (encodeXK_eq_ofNat_row 0xF x 0x65), fun s x h => ?completes,
    fun _ _ => exec_ldVxMem_of_lt⟩
  case completes =>
    have hlen : (s.readBytes s.dataAddr (blockSize x)).length = x.val + 1 := Memory.length_readBytes ..
    refine ⟨_, exec_ldVxMem_of_le h, fun r hr => ?loaded, fun r hr => ?kept, setBlock_changesOnly s x _ hlen⟩
    case loaded => rw [s.getV_setBlock, dif_pos (by omega), s.getElem_readBytes, State.dataAddr]
    case kept => rw [s.getV_setBlock, dif_neg (by omega)]

end Sys2Proof.Machine

/-! ## Display (R171 to R173) -/

namespace Sys2Proof.Machine

/-! ### Which pixels a part of a draw toggles (R173) -/

/-- Drawing over the covered pixels takes the framebuffer and collision flag `before` to `after`: it inverts those
pixels and no other, and sets the flag if one of them was lit. -/
structure Draws (covered : Fin 64 → Fin 32 → Prop) (before after : Framebuffer × Bool) : Prop where
  inverted : ∀ px py, covered px py → after.1.pixel px py = !before.1.pixel px py
  kept : ∀ px py, ¬covered px py → after.1.pixel px py = before.1.pixel px py
  collided : after.2 = true ↔ before.2 = true ∨ ∃ px py, covered px py ∧ before.1.pixel px py = true

section
variable {P Q : Fin 64 → Fin 32 → Prop} {d e f : Framebuffer × Bool}

theorem Draws.of_covers_none (h : ∀ px py, ¬P px py) (d : Framebuffer × Bool) : Draws P d d where
  inverted px py hp := absurd hp (h px py)
  kept _ _ _ := rfl
  collided := by simp [h]

theorem Draws.congr (h : Draws P d e) (hPQ : ∀ px py, P px py ↔ Q px py) : Draws Q d e where
  inverted px py hq := h.inverted px py ((hPQ px py).2 hq)
  kept px py hq := h.kept px py fun hp => hq ((hPQ px py).1 hp)
  collided := by simpa only [hPQ] using h.collided

/-- No pixel is toggled twice, so the second draw finds its own pixels as they were before the first. -/
theorem Draws.trans (h : Draws P d e) (h' : Draws Q e f) (hd : ∀ px py, P px py → ¬Q px py) :
    Draws (fun px py => P px py ∨ Q px py) d f where
  inverted px py hpq := by
    rcases hpq with hp | hq
    · rw [h'.kept px py (hd px py hp), h.inverted px py hp]
    · rw [h'.inverted px py hq, h.kept px py fun hp => hd px py hp hq]
  kept px py hpq := by
    obtain ⟨hp, hq⟩ := not_or.1 hpq
    rw [h'.kept px py hq, h.kept px py hp]
  collided := by
    have hlit (px : Fin 64) (py : Fin 32) :
        Q px py ∧ e.1.pixel px py = true ↔ Q px py ∧ d.1.pixel px py = true :=
      and_congr_right fun hq => by rw [h.kept px py fun hp => hd px py hp hq]
    simp only [h'.collided, h.collided, hlit, or_and_right, exists_or, or_assoc]

end

/-- A run of draws, each over pixels of its own. -/
theorem Draws.foldl {α : Type} {P : α → Fin 64 → Fin 32 → Prop}
    {draw : Framebuffer × Bool → α → Framebuffer × Bool} (hdraw : ∀ a d, Draws (P a) d (draw d a)) (l : List α)
    (hd : l.Pairwise fun a b => ∀ px py, P a px py → ¬P b px py) (d : Framebuffer × Bool) :
    Draws (fun px py => ∃ a ∈ l, P a px py) d (l.foldl draw d) := by
  induction l generalizing d with
  | nil => exact .of_covers_none (by simp) d
  | cons a l ih =>
    obtain ⟨ha, hl⟩ := List.pairwise_cons.1 hd
    have hdisj (px : Fin 64) (py : Fin 32) (hp : P a px py) : ¬∃ b ∈ l, P b px py :=
      fun ⟨b, hb, hq⟩ => ha b hb px py hp hq
    exact ((hdraw a d).trans (ih hl (draw d a)) hdisj).congr fun px py => by simp only [List.mem_cons, exists_eq_or_imp]

/-! ### A pixel, a row, the rows -/

/-- Column `c` of a sprite row at origin `ox`, drawn in row `qy` of the framebuffer, lands on a pixel by a 1 bit. -/
def ColumnCovers (row : Byte) (ox : Nat) (qy : Fin 32) (c : Nat) (px : Fin 64) (py : Fin 32) : Prop :=
  spriteBit row c = true ∧ px = Fin.ofNat 64 (ox + c) ∧ py = qy

/-- Some 1 bit of a sprite row at origin `ox`, drawn in row `qy` of the framebuffer, lands on a pixel. -/
def RowCovers (row : Byte) (ox : Nat) (qy : Fin 32) (px : Fin 64) (py : Fin 32) : Prop :=
  ∃ c ∈ List.range 8, ColumnCovers row ox qy c px py

theorem drawPixel_true_draws (qx : Fin 64) (qy : Fin 32) (d : Framebuffer × Bool) :
    Draws (fun px py => px = qx ∧ py = qy) d (drawPixel true qx qy d) where
  inverted px py h := by
    simp only [drawPixel, if_true, Framebuffer.pixel_toggle, h, and_self, decide_true, Bool.xor_true]
  kept px py h := by
    simp only [drawPixel, if_true, Framebuffer.pixel_toggle, h, decide_false, Bool.xor_false]
  collided := by simp [drawPixel]

theorem drawPixel_draws (row : Byte) (ox : Nat) (qy : Fin 32) (c : Nat) (d : Framebuffer × Bool) :
    Draws (ColumnCovers row ox qy c) d (drawPixel (spriteBit row c) (Fin.ofNat 64 (ox + c)) qy d) := by
  cases hbit : spriteBit row c with
  | false => exact .of_covers_none (fun px py h => by simp [ColumnCovers, hbit] at h) d
  | true => exact (drawPixel_true_draws _ qy d).congr fun px py => by simp only [ColumnCovers, hbit, true_and]

/-- Eight neighbouring columns stay apart when reduced `mod 64`. -/
theorem columnCovers_disjoint (row : Byte) (ox : Nat) (qy : Fin 32) :
    (List.range 8).Pairwise fun c c' =>
      ∀ px py, ColumnCovers row ox qy c px py → ¬ColumnCovers row ox qy c' px py := by
  refine List.pairwise_lt_range.imp_of_mem fun hc hc' hlt px py => ?_
  rintro ⟨-, rfl, -⟩ ⟨-, heq, -⟩
  rw [List.mem_range] at hc hc'
  have := congrArg Fin.val heq
  simp only [Fin.val_ofNat] at this
  omega

theorem drawRow_draws (row : Byte) (ox : Nat) (qy : Fin 32) (d : Framebuffer × Bool) :
    Draws (RowCovers row ox qy) d (drawRow row ox qy d) :=
  .foldl (fun c d => drawPixel_draws row ox qy c d) _ (columnCovers_disjoint row ox qy) d

/-- A row's pixels in the terms of `SpriteCovers`. -/
theorem rowCovers_iff {row : Byte} {ox y : Nat} {px : Fin 64} {py : Fin 32} :
    RowCovers row ox (Fin.ofNat 32 y) px py ↔
      ∃ c < 8, row.getLsbD (7 - c) = true ∧ (ox + c) % 64 = px.val ∧ y % 32 = py.val := by
  simp only [RowCovers, ColumnCovers, spriteBit, List.mem_range, Fin.ext_iff, Fin.val_ofNat, eq_comm]

theorem spriteCovers_nil (ox oy : Nat) (px : Fin 64) (py : Fin 32) : ¬SpriteCovers [] ox oy px py :=
  fun ⟨r, _, h, _⟩ => Nat.not_lt_zero r h

theorem spriteCovers_cons {row : Byte} {rows : List Byte} {ox oy : Nat} {px : Fin 64} {py : Fin 32} :
    SpriteCovers (row :: rows) ox oy px py ↔
      RowCovers row ox (Fin.ofNat 32 oy) px py ∨ SpriteCovers rows ox (oy + 1) px py := by
  rw [rowCovers_iff]
  constructor
  · rintro ⟨r, c, h, hc⟩
    cases r with
    | zero => exact .inl ⟨c, hc⟩
    | succ r => exact .inr ⟨r, c, Nat.lt_of_succ_lt_succ h, by simpa [Nat.add_assoc, Nat.add_comm 1] using hc⟩
  · rintro (⟨c, hc⟩ | ⟨r, c, h, hc⟩)
    · exact ⟨0, c, Nat.zero_lt_succ _, hc⟩
    · exact ⟨r + 1, c, Nat.succ_lt_succ h, by simpa [Nat.add_assoc, Nat.add_comm 1] using hc⟩

/-- A row stays apart, when reduced `mod 32`, from at most 31 rows below it. -/
theorem rowCovers_disjoint {row : Byte} {rows : List Byte} {ox oy : Nat} (hlen : rows.length < 32) (px : Fin 64)
    (py : Fin 32) (hrow : RowCovers row ox (Fin.ofNat 32 oy) px py) : ¬SpriteCovers rows ox (oy + 1) px py := by
  rintro ⟨r, _, hr, -, -, -, hrows⟩
  obtain ⟨_, -, -, -, hy⟩ := rowCovers_iff.1 hrow
  omega

theorem drawRowsFrom_draws (r ox oy : Nat) (rows : List Byte) (hlen : rows.length ≤ 32) (d : Framebuffer × Bool) :
    Draws (SpriteCovers rows ox (oy + r)) d (drawRowsFrom r ox oy rows d) := by
  induction rows generalizing r d with
  | nil => exact .of_covers_none (spriteCovers_nil ox (oy + r)) d
  | cons row rows ih =>
    rw [List.length_cons] at hlen
    exact ((drawRow_draws row ox _ d).trans (ih (r + 1) (by omega) _) (rowCovers_disjoint hlen)).congr
      fun px py => spriteCovers_cons.symm

theorem drawSprite_draws (rows : List Byte) (ox oy : Nat) (fb : Framebuffer) (hlen : rows.length ≤ 32) :
    Draws (SpriteCovers rows ox oy) (fb, false) (drawSprite rows ox oy fb) :=
  drawRowsFrom_draws 0 ox oy rows hlen (fb, false)

/-- Settles O37: the columns of a row and the rows of a sprite land on different pixels, so each draws over what stood
before the whole draw. -/
theorem drawTogglesExactlyTheCoveredPixels : Obligations.DrawTogglesExactlyTheCoveredPixels := by
  intro rows ox oy fb hlen
  obtain ⟨hinverted, hkept, hcollided⟩ := drawSprite_draws rows ox oy fb (by omega)
  exact ⟨hinverted, hkept, by simpa using hcollided⟩

/-! ### CLS and DRW (R171, R172) -/

theorem Framebuffer.pixel_clear (px : Fin 64) (py : Fin 32) : Framebuffer.clear.pixel px py = false := by
  simp [Framebuffer.pixel, Framebuffer.clear]

/-- Settles O35: CLS puts the dark framebuffer in place and does nothing else. -/
theorem clearDarkensEveryPixel : Obligations.ClearDarkensEveryPixel :=
  ⟨decodeWord_encode .cls, fun s => ⟨_, rfl, fun _ => Framebuffer.pixel_clear _ _, setFb_changesOnly s _⟩⟩

theorem State.spriteRows_eq_map (s : State) (n : Fin 16) :
    s.spriteRows n = (List.range n.val).map fun r => s.readByte (s.regI.toNat + r) :=
  Memory.readBytes_eq_map s.mem s.regI.toNat n.val

theorem exec_drwVxVyN_of_le {s : State} (x y : Reg) {n : Fin 16} (h : n.val = 0 ∨ s.dataAddr + n.val - 1 ≤ 0xFFF) :
    exec (.drwVxVyN x y n) s =
      .next ((s.setFb (drawSprite (s.spriteRows n) (s.getV x).toNat (s.getV y).toNat s.fb).1).setV vf
        (flagByte (drawSprite (s.spriteRows n) (s.getV x).toNat (s.getV y).toNat s.fb).2)) := by
  have hvalid : firstInvalid? s.dataAddr n.val = none := firstInvalid?_eq_none.2 (by omega)
  simp only [exec, execDrwVxVyN, hvalid]

theorem exec_drwVxVyN_of_lt {s : State} (x y : Reg) {n : Fin 16} (hn : 0 < n.val)
    (h : 0xFFF < s.dataAddr + n.val - 1) :
    exec (.drwVxVyN x y n) s = .fault (.addressOutOfRange (s.pc - 2) (max s.dataAddr 0x1000)) := by
  have hinvalid : firstInvalid? s.dataAddr n.val = some (max s.dataAddr 0x1000) :=
    firstInvalid?_eq_some.2 ⟨by omega, rfl⟩
  simp only [exec, execDrwVxVyN, hinvalid, raise, State.pc0]

/-- Settles O36: DRW by the range of its access; the rows it draws are the bytes from `I` up, none if `n` is 0. -/
theorem drawXorsTheSpriteAtTheIndex : Obligations.DrawXorsTheSpriteAtTheIndex := by
  refine ⟨fun x y n => decodeWord_of_encode_eq (congrArg (BitVec.ofNat 16) (by omega)),
    fun s x y n rows h hrows => ?completes,
    fun s x y n => exec_drwVxVyN_of_lt x y⟩
  case completes =>
    obtain rfl : s.spriteRows n = rows := (s.spriteRows_eq_map n).trans hrows.symm
    have e := exec_drwVxVyN_of_le x y h
    refine ⟨_, e, rfl, State.getV_setV_same .., fun hn => ?noRows, exec_next_changesOnly e⟩
    case noRows =>
      have hnil : s.spriteRows n = [] := by rw [s.spriteRows_eq_map, hn]; rfl
      rw [hnil]
      exact ⟨rfl, State.getV_setV_same ..⟩

end Sys2Proof.Machine

/-! ## Keys and timers (R185 to R192) -/

namespace Sys2Proof.Machine

/-! ### The wait for a key (R188) -/

theorem State.lowestKey?_eq_none {s : State} (h : ∀ k, s.keyDown k = false) : s.lowestKey? = none := by
  rcases s.lowestKey?_cases with ⟨e, -⟩ | ⟨k, -, hk, -⟩
  · exact e
  · exact absurd hk (by simp [h k])

theorem State.lowestKey?_eq_some {s : State} {k : Key} (hk : s.keyDown k = true)
    (hlt : ∀ j, j < k → s.keyDown j = false) : s.lowestKey? = some k := by
  rcases s.lowestKey?_cases with ⟨-, hup⟩ | ⟨m, e, hm, hmlt⟩
  · exact absurd hk (by simp [hup k])
  · have hkm : ¬k < m := fun h => absurd hk (by simp [hmlt k h])
    have hmk : ¬m < k := fun h => absurd hm (by simp [hlt m h])
    rw [e, le_antisymm (not_lt.1 hkm) (not_lt.1 hmk)]

theorem exec_ldVxK_of_lowest {s : State} (x : Reg) {k : Key} (hk : s.keyDown k = true)
    (hlt : ∀ j, j < k → s.keyDown j = false) : exec (.ldVxK x) s = .next (s.setV x (keyByte k)) := by
  simp only [exec, execLdVxK, State.lowestKey?_eq_some hk hlt]

theorem exec_ldVxK_of_all_up {s : State} (x : Reg) (h : ∀ k, s.keyDown k = false) :
    exec (.ldVxK x) s = .next s.rewindPc := by
  simp only [exec, execLdVxK, State.lowestKey?_eq_none h]

theorem toNat_keyByte (k : Key) : (keyByte k).toNat = k.val := by
  rw [keyByte, BitVec.toNat_ofNat]
  omega

/-- The wait undoes the advance of its own step, whatever `pc` wraps to. -/
theorem rewindPc_advancePc (s : State) : s.advancePc.rewindPc = s :=
  congrArg s.setPc (advancePc_pc_sub_two s)

/-- Settles O40: LD Vx, K by whether a key is down; a step that waits advances `pc` and goes back. -/
theorem waitKeyTakesTheLowestKeyOrRepeats : Obligations.WaitKeyTakesTheLowestKeyOrRepeats := by
  have hdecode (x : Reg) : decodeWord (BitVec.ofNat 16 (0xF00A + 0x100 * x.val)) = some (.ldVxK x) :=
    decodeWord_of_encode_eq (encodeXK_eq_ofNat_row 0xF x 0x0A)
  refine ⟨hdecode, fun s x k hk hlt => ⟨_, exec_ldVxK_of_lowest x hk hlt, ?taken, setV_changesOnly s x _⟩,
    fun s x h => ⟨_, exec_ldVxK_of_all_up x h, rfl, setPc_changesOnly s _⟩, fun s x h hf => ?repeats⟩
  case taken => rw [s.getV_setV_same, toNat_keyByte]
  case repeats => rw [step_eq_exec hf (hdecode x), exec_ldVxK_of_all_up (s := s.advancePc) x h, rewindPc_advancePc]

/-! ### The timer tick (R191) -/

theorem toNat_countDown (t : Byte) : (countDown t).toNat = t.toNat - 1 := by
  by_cases h : t = 0
  · rw [h]; rfl
  · have hpos : 0 < t.toNat := Nat.pos_of_ne_zero fun e => h (BitVec.eq_of_toNat_eq e)
    have hone : (1 : Byte).toNat = 1 := rfl
    rw [countDown, if_neg h, BitVec.toNat_sub, hone]
    omega

theorem toNat_tick_st (s : State) : (tick s).1.st.toNat = s.st.toNat - 1 :=
  toNat_countDown s.st

theorem tick_changesOnly (s : State) : ChangesOnly [.delayTimer, .soundTimer] [] s (tick s).1 := by
  refine ⟨fun p hp => ?_, fun r _ => getV_tick s r⟩
  cases p with
  | delayTimer | soundTimer => simp at hp
  | callStack => exact ⟨rfl, rfl⟩
  | memory => exact fun _ => rfl
  | _ => rfl

theorem applyEvent_tick (s : State) :
    applyEvent .tick s = ((tick s).1, if s.st = 1 then .soundStop else .quiet) := by
  simp only [applyEvent, tick, beq_iff_eq]

/-- Settles O42: each timer by one count, the pulse by what ST was, and the frame. -/
theorem tickCountsBothTimersDown : Obligations.TickCountsBothTimersDown :=
  fun s => ⟨_, _, applyEvent_tick s, toNat_countDown s.dt, toNat_tick_st s, rfl, tick_changesOnly s⟩

/-! ### The `sound_stop` pulse (R192) -/

theorem reportOf_ne_soundStop (r : Result) : reportOf r ≠ .soundStop := by
  cases r <;> exact nofun

theorem afterLoad_ne_soundStop (s : State) (r : Except LoadError State) : (afterLoad s r).2 ≠ .soundStop := by
  cases r <;> exact nofun

theorem applyEvent_eq_soundStop_iff (e : Event) (s : State) :
    (applyEvent e s).2 = .soundStop ↔ e = .tick ∧ s.st = 1 := by
  cases e with
  | tick => simp [applyEvent_tick]
  | step => exact iff_of_false (reportOf_ne_soundStop _) nofun
  | loadProgram source => exact iff_of_false (afterLoad_ne_soundStop s _) nofun
  | _ => exact iff_of_false nofun nofun

/-- A run of ticks, by its first tick. -/
theorem outputs_replicate_tick_succ (m : Nat) (s : State) :
    (runEvents (List.replicate (m + 1) .tick) s).2 =
      (if s.st.toNat = 1 then .soundStop else .quiet) :: (runEvents (List.replicate m .tick) (tick s).1).2 := by
  have hst : s.st = 1 ↔ s.st.toNat = 1 := BitVec.toNat_inj.symm
  simp only [List.replicate_succ, runEvents, applyEvent_tick, hst]

theorem outputs_replicate_tick_of_st_eq_zero (k : Nat) {s : State} (h : s.st.toNat = 0) :
    (runEvents (List.replicate k .tick) s).2 = List.replicate k .quiet := by
  induction k generalizing s with
  | zero => rfl
  | succ k ih =>
    have hnext : (tick s).1.st.toNat = 0 := by rw [toNat_tick_st, h]
    rw [outputs_replicate_tick_succ, h, ih hnext, List.replicate_succ]
    rfl

theorem outputs_replicate_tick_of_st_eq_succ (n k : Nat) {s : State} (h : s.st.toNat = n + 1) :
    (runEvents (List.replicate (n + 1 + k) .tick) s).2 =
      List.replicate n .quiet ++ .soundStop :: List.replicate k .quiet := by
  induction n generalizing s with
  | zero =>
    have hnext : (tick s).1.st.toNat = 0 := by rw [toNat_tick_st, h]
    rw [Nat.add_right_comm, outputs_replicate_tick_succ, h, Nat.zero_add k,
      outputs_replicate_tick_of_st_eq_zero k hnext]
    rfl
  | succ n ih =>
    have hnext : (tick s).1.st.toNat = n + 1 := by rw [toNat_tick_st, h, Nat.add_sub_cancel]
    have hquiet : ¬n + 1 + 1 = 1 := by omega
    rw [Nat.add_right_comm, outputs_replicate_tick_succ, h, if_neg hquiet, ih hnext, List.replicate_succ,
      List.cons_append]

/-! ### Between ticks ST holds still (R26, R192) -/

/-- A part other than `pc` changes in a step only if the step runs an instruction that writes it; a fault changes
none. -/
theorem step_samePart {s : State} {p : Part} (hp : p ≠ .programCounter)
    (h : ∀ op i, fetch s = .ok op → decodeWord op = some i → p ∉ writtenParts i) :
    SamePart s (stateAfter s (step s)) p := by
  have hrefl : SamePart s s p := (ChangesOnly.refl [] [] s).1 p List.not_mem_nil
  rcases step_cases s with ⟨-, e⟩ | ⟨-, -, e⟩ | ⟨i, hpc, hd, e⟩ <;> rw [e]
  · exact hrefl
  · exact hrefl
  · have hadvance : SamePart s s.advancePc p := (setPc_changesOnly s _).1 p (by simpa using hp)
    have hexec := (exec_changesOnly i s.advancePc).1 p (h _ i (fetch_eq_ok hpc) hd)
    cases hr : exec i s.advancePc with
    | next t => rw [hr] at hexec; exact hadvance.trans hexec
    | fault | refused => exact hrefl

theorem afterLoad_loadFromSource_changesOnly (source : Option (List Byte)) (s : State) :
    ChangesOnly [.memory, .programCounter] [] s (afterLoad s (loadFromSource source s)).1 := by
  cases source with
  | none => exact .refl _ _ s
  | some bytes =>
    rcases loadProgram_cases bytes s with ⟨-, e⟩ | ⟨-, e⟩ <;> simp only [loadFromSource, e]
    · exact .refl _ _ s
    · exact (storeBytes_changesOnly s _ bytes).trans (setPc_changesOnly _ _)

theorem soundTimer_mem_writtenParts {i : Instr} (h : .soundTimer ∈ writtenParts i) : ∃ x, i = .ldStVx x := by
  cases i with
  | ldStVx x => exact ⟨x, rfl⟩
  | _ => simp [writtenParts] at h

theorem applyEvent_st {e : Event} {s : State} (hreset : e.isNotReset = true) (htick : e ≠ .tick)
    (hstep : e = .step → ∀ op x, fetch s = .ok op → decodeWord op ≠ some (.ldStVx x)) :
    (applyEvent e s).1.st = s.st := by
  cases e with
  | reset init => simp [Event.isNotReset] at hreset
  | tick => exact absurd rfl htick
  | step =>
    refine step_samePart (p := .soundTimer) nofun fun op i hf hd hmem => ?_
    obtain ⟨x, rfl⟩ := soundTimer_mem_writtenParts hmem
    exact hstep rfl op x hf hd
  | loadProgram source => exact (afterLoad_loadFromSource_changesOnly source s).1 .soundTimer (by decide)
  | keyWrite | fbRead | loadFont => rfl

/-- Settles O43: the pulse by the kind of event, a run of ticks by induction on the count that ST starts from, and
the events between ticks by their frames. -/
theorem nthTickEmitsSoundStop : Obligations.NthTickEmitsSoundStop := by
  refine ⟨applyEvent_eq_soundStop_iff, fun s n k hst hn => ?ticks, fun _ _ => applyEvent_st⟩
  case ticks =>
    obtain ⟨m, rfl⟩ := Nat.exists_eq_add_of_le' hn
    exact outputs_replicate_tick_of_st_eq_succ m k hst

/-! ### The skips on a key (R185, R186) -/

theorem keyIndex?_eq_some {b : Byte} {k : Key} (h : b.toNat = k.val) : keyIndex? b = some k := by
  rcases keyIndex?_cases b with ⟨hgt, -⟩ | ⟨_, e⟩
  · omega
  · rw [e, Option.some_inj]
    exact Fin.ext h

theorem keyIndex?_eq_none {b : Byte} (h : 0xF < b.toNat) : keyIndex? b = none := by
  rcases keyIndex?_cases b with ⟨-, e⟩ | ⟨hlt, -⟩
  · exact e
  · omega

theorem exec_skpVx_of_key {s : State} {x : Reg} {k : Key} (h : (s.getV x).toNat = k.val) :
    exec (.skpVx x) s = .next (s.skipIf (s.keyDown k)) := by
  simp only [exec, execSkpVx, keyIndex?_eq_some h]

theorem exec_sknpVx_of_key {s : State} {x : Reg} {k : Key} (h : (s.getV x).toNat = k.val) :
    exec (.sknpVx x) s = .next (s.skipIf (!s.keyDown k)) := by
  simp only [exec, execSknpVx, keyIndex?_eq_some h]

theorem exec_skpVx_of_lt {s : State} {x : Reg} (h : 0xF < (s.getV x).toNat) :
    exec (.skpVx x) s = .fault (.keyIndexOutOfRange (s.pc - 2) (s.getV x)) := by
  simp only [exec, execSkpVx, keyIndex?_eq_none h, raise, State.pc0]

theorem exec_sknpVx_of_lt {s : State} {x : Reg} (h : 0xF < (s.getV x).toNat) :
    exec (.sknpVx x) s = .fault (.keyIndexOutOfRange (s.pc - 2) (s.getV x)) := by
  simp only [exec, execSknpVx, keyIndex?_eq_none h, raise, State.pc0]

theorem skipIf_not_pc (s : State) (c : Bool) : (s.skipIf (!c)).pc = if c then s.pc else s.pc + 2 := by
  cases c <;> rfl

/-- Settles O39: both skips by whether `Vx` is a key code. -/
theorem keySkips : Obligations.KeySkips :=
  ⟨fun x => ⟨decodeWord_of_encode_eq (encodeXK_eq_ofNat_row 0xE x 0x9E),
      decodeWord_of_encode_eq (encodeXK_eq_ofNat_row 0xE x 0xA1)⟩,
    fun s _ k h => ⟨⟨_, exec_skpVx_of_key h, s.skipIf_pc (s.keyDown k), skipIf_changesOnly s _⟩,
      ⟨_, exec_sknpVx_of_key h, skipIf_not_pc s (s.keyDown k), skipIf_changesOnly s _⟩⟩,
    fun _ _ h => ⟨exec_skpVx_of_lt h, exec_sknpVx_of_lt h⟩⟩

/-! ### The timer instructions (R187, R189, R190) -/

/-- Settles O41: each makes one write, and the report of a step is never a pulse. -/
theorem timerInstructionsCopy : Obligations.TimerInstructionsCopy :=
  ⟨fun x => ⟨decodeWord_of_encode_eq (encodeXK_eq_ofNat_row 0xF x 0x07),
      decodeWord_of_encode_eq (encodeXK_eq_ofNat_row 0xF x 0x15),
      decodeWord_of_encode_eq (encodeXK_eq_ofNat_row 0xF x 0x18)⟩,
    fun s x => ⟨_, rfl, s.getV_setV_same x s.dt, setV_changesOnly s x s.dt⟩,
    fun s x => ⟨_, rfl, s.setDt_dt (s.getV x), setDt_changesOnly s _⟩,
    fun s x => ⟨_, rfl, s.setSt_st (s.getV x), setSt_changesOnly s _⟩,
    fun s => reportOf_ne_soundStop (step s)⟩

end Sys2Proof.Machine

/-! ## Faults (R207, R209) -/

namespace Sys2Proof.Machine

/-- R209 for a scheduler that goes on after a fault: each further step begins in the pre-step state again. -/
theorem runEvents_replicate_step_of_fault {s : State} {f : Fault} (h : step s = .fault f) (n : Nat) :
    runEvents (List.replicate n .step) s = (s, List.replicate n (.faultReport f)) := by
  induction n with
  | zero => rfl
  | succ n ih => simp only [List.replicate_succ, runEvents, applyEvent_step_of_fault h, ih]

/-- Settles O8: two of any number of steps that fault alike. -/
theorem faultLeavesTheStateAndRecurs : Obligations.FaultLeavesTheStateAndRecurs :=
  fun _ _ h => runEvents_replicate_step_of_fault h 2

end Sys2Proof.Machine

/-! ## Reset and the loads (R230, R233, R235) -/

namespace Sys2Proof.Machine

theorem Framebuffer.at_clear (j : Fin 2048) : Framebuffer.clear.at j = false := Framebuffer.pixel_clear _ _

/-- R230: a byte of `MEM` that the image lists; the image is cut at the size of `MEM`. -/
theorem readByte_resetEvent (init : Init) (s : State) (a : Nat) (h : a < init.image.length) (ha : a ≤ 0xFFF) :
    (resetEvent init s).readByte a = init.image[a] := by
  have hk : a < (init.image.take Config.memSize).length := by
    rw [List.length_take, Config.memSize]
    omega
  have hread : (resetEvent init s).readByte (0 + a) = (init.image.take Config.memSize)[a] :=
    Memory.read_writeBytes_add Memory.wf_nil 0 _ a hk
  rwa [Nat.zero_add, List.getElem_take] at hread

/-- Settles O48: the bytes by `readByte_resetEvent`, every other field is set by the event itself. -/
theorem resetClearsTheFramebufferAndTheStack : Obligations.ResetClearsTheFramebufferAndTheStack :=
  fun init s => ⟨resetEvent init s, rfl, Framebuffer.at_clear, rfl, rfl, rfl, rfl, rfl, rfl, rfl, rfl,
    readByte_resetEvent init s⟩

/-- Settles O49: `load_font` is one store of 80 bytes from 0x050 up. -/
theorem loadFontWritesTheFontRange : Obligations.LoadFontWritesTheFontRange := by
  intro font s
  have hlen : font.toList.length = 80 := Vector.length_toList
  refine ⟨loadFont font s, rfl, fun hm k hk => ?written, fun a ha => ?outside,
    storeBytes_changesOnly s Config.fontBase font.toList⟩
  case written =>
    have hread := State.readByte_storeBytes_add hm Config.fontBase font.toList k (by omega)
    rwa [Vector.getElem_toList] at hread
  case outside =>
    apply s.readByte_storeBytes_outside
    rw [hlen, Config.fontBase]
    omega

theorem applyEvent_loadProgram_of_lt {bytes : List Byte} (s : State) (h : 0x1000 < bytes.length + 0x200) :
    applyEvent (.loadProgram (some bytes)) s = (s, .loadFailed .capacityExceeded) := by
  rcases loadProgram_cases bytes s with ⟨-, e⟩ | ⟨hle, -⟩
  · simp only [applyEvent, loadFromSource, e, afterLoad]
  · omega

theorem applyEvent_loadProgram_of_le {bytes : List Byte} (s : State) (h : bytes.length + 0x200 ≤ 0x1000) :
    applyEvent (.loadProgram (some bytes)) s = ((s.storeBytes 0x200 bytes).setPc 0x200, .quiet) := by
  rcases loadProgram_cases bytes s with ⟨hlt, -⟩ | ⟨-, e⟩
  · omega
  · simp only [applyEvent, loadFromSource, e, afterLoad]

/-- Settles O50: by whether the program fits; one that does is a store from 0x200 up, then a write of `pc`, which
leaves the bytes stored as they are. -/
theorem loadProgramIsAllOrNothing : Obligations.LoadProgramIsAllOrNothing := by
  refine ⟨fun _ s h => applyEvent_loadProgram_of_lt s h, fun bytes s h =>
    ⟨_, applyEvent_loadProgram_of_le s h, rfl, fun hm k hk => ?written, fun a ha => ?outside,
      (storeBytes_changesOnly s 0x200 bytes).trans (setPc_changesOnly _ _)⟩⟩
  case written => exact State.readByte_storeBytes_add hm 0x200 bytes k hk
  case outside => exact s.readByte_storeBytes_outside ha

end Sys2Proof.Machine

/-! ## The round trips of the encoding (R75, R76) -/

namespace Sys2Proof

theorem tableWord_toNat (w : Word) : tableWord 16 w.toNat = w := by
  rw [tableWord, Nat.mod_eq_of_lt w.isLt, BitVec.ofNat_toNat, BitVec.setWidth_eq]

theorem decodeBytes_encodeBytes_append (i : Instr) (rest : List Byte) :
    decodeBytes (encodeBytes i ++ rest) = .instr i rest := by
  simp only [encodeBytes, List.cons_append, List.nil_append, decodeBytes, wordOfBytes_bytes, decodeWord_encode]

theorem decodeTableWord_encode (i : Instr) : decodeTableWord 16 (encode i).toNat = some i := by
  have hbytes : decodeBytes [highByte (encode i), lowByte (encode i)] = .instr i [] :=
    decodeBytes_encodeBytes_append i []
  simp only [decodeTableWord, tableWord_toNat, hbytes]

/-- Settles O1: the word decodes by its fields, and the bytes and the table's number spell the word. -/
theorem decodeOfEncodeIsTheInstruction : Obligations.DecodeOfEncodeIsTheInstruction :=
  fun i rest => ⟨decodeWord_encode i, decodeBytes_encodeBytes_append i rest, decodeTableWord_encode i⟩

/-- Settles O2: the families of the decoder, by the format of their words. -/
theorem encodeOfDecodeIsTheWord : Obligations.EncodeOfDecodeIsTheWord :=
  fun _ _ => encode_of_decodeWord

/-- Settles O4: the decoder run on each word. -/
theorem sampleWordsDecode : Obligations.SampleWordsDecode := by
  unfold Obligations.SampleWordsDecode
  decide

end Sys2Proof

/-! ## The fault table (R210, R218) -/

namespace Sys2Proof.Machine

/-- A result is a fault of the given code if the condition holds, and a next state if not. -/
def FaultsExactly (condition : Prop) (code : Nat) (r : Result) : Prop :=
  (condition ∧ ∃ f, r = .fault f ∧ f.code = code) ∨ (¬condition ∧ ∃ t, r = .next t)

theorem faultsExactly_next (code : Nat) (t : State) : FaultsExactly False code (.next t) :=
  .inr ⟨id, t, rfl⟩

theorem FaultsExactly.of_fault {P : Prop} {r : Result} {f : Fault} (hP : P) (e : r = .fault f) :
    FaultsExactly P f.code r :=
  .inl ⟨hP, f, e, rfl⟩

theorem FaultsExactly.of_next {P : Prop} {code : Nat} {r : Result} {t : State} (hP : ¬P) (e : r = .next t) :
    FaultsExactly P code r :=
  .inr ⟨hP, t, e⟩

theorem FaultsExactly.congr {P Q : Prop} {code : Nat} {r : Result} (h : FaultsExactly P code r) (hPQ : P ↔ Q) :
    FaultsExactly Q code r :=
  propext hPQ ▸ h

theorem exec_ret_faultsExactly (s : State) : FaultsExactly (s.sp.val = 0) 2 (exec .ret s) := by
  by_cases h : s.sp.val = 0
  · exact .of_fault h (exec_ret_of_eq_zero h)
  · exact .of_next h (exec_ret_of_pos (by omega))

theorem exec_callNnn_faultsExactly (nnn : Addr12) (s : State) :
    FaultsExactly (s.sp.val = 16) 3 (exec (.callNnn nnn) s) := by
  by_cases h : s.sp.val = 16
  · exact .of_fault h (exec_callNnn_of_eq_16 nnn h)
  · exact .of_next h (exec_callNnn_of_lt nnn (by omega))

theorem exec_drwVxVyN_faultsExactly (x y : Reg) (n : Fin 16) (s : State) :
    FaultsExactly (0 < n.val ∧ 0xFFF < s.regI.toNat + n.val - 1) 4 (exec (.drwVxVyN x y n) s) := by
  by_cases h : 0 < n.val ∧ 0xFFF < s.regI.toNat + n.val - 1
  · exact .of_fault h (exec_drwVxVyN_of_lt x y h.1 h.2)
  · exact .of_next h (exec_drwVxVyN_of_le x y (by rw [State.dataAddr]; omega))

theorem exec_ldBVx_faultsExactly (x : Reg) (s : State) :
    FaultsExactly (0xFFF < s.regI.toNat + 2) 4 (exec (.ldBVx x) s) := by
  by_cases h : 0xFFF < s.regI.toNat + 2
  · exact .of_fault h (exec_ldBVx_of_lt x h)
  · exact .of_next h (exec_ldBVx_of_le x (not_lt.1 h))

theorem exec_ldMemVx_faultsExactly (x : Reg) (s : State) :
    FaultsExactly (0xFFF < s.regI.toNat + x.val) 4 (exec (.ldMemVx x) s) := by
  by_cases h : 0xFFF < s.regI.toNat + x.val
  · exact .of_fault h (exec_ldMemVx_of_lt h)
  · exact .of_next h (exec_ldMemVx_of_le (not_lt.1 h))

theorem exec_ldVxMem_faultsExactly (x : Reg) (s : State) :
    FaultsExactly (0xFFF < s.regI.toNat + x.val) 4 (exec (.ldVxMem x) s) := by
  by_cases h : 0xFFF < s.regI.toNat + x.val
  · exact .of_fault h (exec_ldVxMem_of_lt h)
  · exact .of_next h (exec_ldVxMem_of_le (not_lt.1 h))

theorem exec_skpVx_faultsExactly (x : Reg) (s : State) :
    FaultsExactly (0xF < (s.getV x).toNat) 5 (exec (.skpVx x) s) := by
  by_cases h : 0xF < (s.getV x).toNat
  · exact .of_fault h (exec_skpVx_of_lt h)
  · exact .of_next h (exec_skpVx_of_key (k := ⟨(s.getV x).toNat, by omega⟩) rfl)

theorem exec_sknpVx_faultsExactly (x : Reg) (s : State) :
    FaultsExactly (0xF < (s.getV x).toNat) 5 (exec (.sknpVx x) s) := by
  by_cases h : 0xF < (s.getV x).toNat
  · exact .of_fault h (exec_sknpVx_of_lt h)
  · exact .of_next h (exec_sknpVx_of_key (k := ⟨(s.getV x).toNat, by omega⟩) rfl)

theorem exec_ldVxK_next (x : Reg) (s : State) : ∃ t, exec (.ldVxK x) s = .next t := by
  rcases s.lowestKey?_cases with ⟨-, hup⟩ | ⟨k, -, hk, hlt⟩
  · exact ⟨_, exec_ldVxK_of_all_up x hup⟩
  · exact ⟨_, exec_ldVxK_of_lowest x hk hlt⟩

theorem writeAlu_faultsExactly (i : Instr) (isAlias : Bool) (x y : Reg) (f : Byte → Byte → Byte) (flag : Bool)
    (s : State) :
    FaultsExactly (isAlias = true ∧ s.aliasPolicy = .refuse) 6 (writeAlu i isAlias x y f flag s) := by
  rcases writeAlu_cases i isAlias x y f flag s with ⟨ha, hp, e⟩ | ⟨h, e⟩ | ⟨-, hp, e⟩ | ⟨-, hp, e⟩
  · exact .of_fault ⟨ha, hp⟩ e
  · exact .of_next (by rintro ⟨rfl, hp⟩; simp [hp] at h) e
  · exact .of_next (by simp [hp]) e
  · exact .of_next (by simp [hp]) e

/-- Every instruction completes or faults, and which of the two is the table's condition. -/
theorem exec_faultsExactly (i : Instr) (s : State) : FaultsExactly (FaultsWhen i s) (faultCode i) (exec i s) := by
  cases i with
  | ret => exact exec_ret_faultsExactly s
  | callNnn nnn => exact exec_callNnn_faultsExactly nnn s
  | drwVxVyN x y n => exact exec_drwVxVyN_faultsExactly x y n s
  | ldBVx x => exact exec_ldBVx_faultsExactly x s
  | ldMemVx x => exact exec_ldMemVx_faultsExactly x s
  | ldVxMem x => exact exec_ldVxMem_faultsExactly x s
  | skpVx x => exact exec_skpVx_faultsExactly x s
  | sknpVx x => exact exec_sknpVx_faultsExactly x s
  | ldVxK x => exact .of_next id (exec_ldVxK_next x s).choose_spec
  | addVxVy x y | subVxVy x y | subnVxVy x y =>
    exact (writeAlu_faultsExactly ..).congr (and_congr_left' (aliasesXY_iff x y))
  | shrVx x => exact (writeAlu_faultsExactly _ _ x x (fun a _ => shrRes a) _ s).congr (and_congr_left' (aliasesX_iff x))
  | shlVx x => exact (writeAlu_faultsExactly _ _ x x (fun a _ => shlRes a) _ s).congr (and_congr_left' (aliasesX_iff x))
  | _ => exact faultsExactly_next _ _

/-- Settles O9: the table's condition tells the two outcomes of an instruction apart. -/
theorem instructionsFaultExactlyByTheTable : Obligations.InstructionsFaultExactlyByTheTable := by
  intro i s
  rcases exec_faultsExactly i s with ⟨h, f, e, hcode⟩ | ⟨h, t, e⟩ <;> rw [e]
  · exact ⟨iff_of_true ⟨f, rfl⟩ h, by rintro _ ⟨⟩; exact hcode⟩
  · exact ⟨iff_of_false nofun h, nofun⟩

/-- Settles O10: a step faults in its fetch or decoding, or has the outcome of an instruction. -/
theorem everyStepCompletesOrFaults : Obligations.EveryStepCompletesOrFaults := by
  intro s
  rcases step_cases s with ⟨-, e⟩ | ⟨-, -, e⟩ | ⟨i, -, -, e⟩ <;> rw [e]
  · exact .inr ⟨_, rfl⟩
  · exact .inr ⟨_, rfl⟩
  · rcases exec_faultsExactly i s.advancePc with ⟨-, f, hf, -⟩ | ⟨-, t, ht⟩
    · exact .inr ⟨f, hf⟩
    · exact .inl ⟨t, ht⟩

theorem not_faultsWhen_of_next {i : Instr} {s t : State} (h : exec i s = .next t) : ¬FaultsWhen i s := by
  rcases exec_faultsExactly i s with ⟨-, f, e, -⟩ | ⟨hn, -⟩
  · exact nomatch h.symm.trans e
  · exact hn

end Sys2Proof.Machine

/-! ## Memory as a map of bytes (R53, R59, R66) -/

namespace Sys2Proof.Machine

/-- Settles O33: a write by whether the address read is its own. -/
theorem memoryReadAfterWrite : Obligations.MemoryReadAfterWrite := by
  intro m a c b hm
  split
  case isTrue h => rw [h, Memory.read_write_same hm]
  case isFalse h => exact Memory.read_write_ne h b m

theorem Memory.wfFrom_cons {lo k : Nat} {b : Byte} {m : Memory} :
    Memory.wfFrom lo ((k, b) :: m) = true ↔ lo ≤ k ∧ b ≠ Config.unlistedByte ∧ m.wfFrom (k + 1) = true := by
  simp only [Memory.wfFrom, Bool.and_eq_true, decide_eq_true_eq, and_assoc]

theorem Memory.read_cons_same (k : Nat) (b : Byte) (m : Memory) : Memory.read ((k, b) :: m) k = b :=
  if_pos rfl

theorem Memory.read_cons_ne {k a : Nat} (h : k ≠ a) (b : Byte) (m : Memory) :
    Memory.read ((k, b) :: m) a = m.read a :=
  if_neg h

/-- An entry is no unlisted byte, so a memory that reads alike lists its address too. -/
theorem Memory.le_of_read_eq {lo j k : Nat} {b : Byte} {m n : Memory}
    (hm : Memory.wfFrom lo ((k, b) :: m) = true) (hn : n.wfFrom j = true)
    (h : ∀ a, Memory.read ((k, b) :: m) a = n.read a) : j ≤ k := by
  by_contra hlt
  obtain ⟨-, hb, -⟩ := Memory.wfFrom_cons.1 hm
  have hk := h k
  rw [Memory.read_cons_same, Memory.read_of_wfFrom hn (not_le.1 hlt)] at hk
  exact hb hk

/-- Two canonical memories that read alike start at the same address with the same byte, and so on up. -/
theorem Memory.eq_of_read_eq {lo lo' : Nat} {m n : Memory} (hm : m.wfFrom lo = true) (hn : n.wfFrom lo' = true)
    (h : ∀ a, m.read a = n.read a) : m = n := by
  induction m generalizing n lo lo' with
  | nil =>
    cases n with
    | nil => rfl
    | cons d n => exact absurd (Memory.le_of_read_eq (j := d.1 + 1) hn rfl fun a => (h a).symm) (Nat.not_succ_le_self _)
  | cons c m ih =>
    cases n with
    | nil => exact absurd (Memory.le_of_read_eq (j := c.1 + 1) hm rfl h) (Nat.not_succ_le_self _)
    | cons d n =>
      obtain ⟨k, b⟩ := c
      obtain ⟨j, e⟩ := d
      obtain ⟨-, hb, hm'⟩ := Memory.wfFrom_cons.1 hm
      obtain ⟨-, he, hn'⟩ := Memory.wfFrom_cons.1 hn
      have hjk : j ≤ k := Memory.le_of_read_eq hm (Memory.wfFrom_cons.2 ⟨le_rfl, he, hn'⟩) h
      have hkj : k ≤ j := Memory.le_of_read_eq hn (Memory.wfFrom_cons.2 ⟨le_rfl, hb, hm'⟩) fun a => (h a).symm
      obtain rfl := le_antisymm hjk hkj
      have hbe := h j
      rw [Memory.read_cons_same, Memory.read_cons_same] at hbe
      have htail (a : Nat) : Memory.read m a = Memory.read n a := by
        by_cases ha : a ≤ j
        · rw [Memory.read_of_wfFrom hm' (by omega), Memory.read_of_wfFrom hn' (by omega)]
        · have hne : j ≠ a := by omega
          rw [← Memory.read_cons_ne hne b, h a, Memory.read_cons_ne hne]
      rw [hbe, ih hm' hn' htail]

/-- Settles O34: the canonical form from address 0 up. -/
theorem equalBytesAreEqualMemories : Obligations.EqualBytesAreEqualMemories :=
  fun _ _ hm hn => Memory.eq_of_read_eq hm hn

/-! ### Stores to disjoint ranges commute -/

/-- A byte after a store, whether or not the store reaches it. -/
theorem Memory.read_writeBytes {m : Memory} (hm : m.wf = true) (a : Nat) (bs : List Byte) (c : Nat) :
    (m.writeBytes a bs).read c = if h : a ≤ c ∧ c - a < bs.length then bs[c - a] else m.read c := by
  split
  case isTrue h =>
    have hread := Memory.read_writeBytes_add hm a bs (c - a) h.2
    rwa [Nat.add_sub_cancel' h.1] at hread
  case isFalse h => exact Memory.read_writeBytes_outside (by omega) m

theorem Memory.writeBytes_comm {m : Memory} (hm : m.wf = true) {a c : Nat} {as cs : List Byte}
    (h : a + as.length ≤ c) : (m.writeBytes a as).writeBytes c cs = (m.writeBytes c cs).writeBytes a as := by
  have ha := Memory.wf_writeBytes m a as hm
  have hc := Memory.wf_writeBytes m c cs hm
  refine Memory.eq_of_read_eq (Memory.wf_writeBytes _ c cs ha) (Memory.wf_writeBytes _ a as hc) fun p => ?_
  rw [Memory.read_writeBytes ha, Memory.read_writeBytes hm, Memory.read_writeBytes hc, Memory.read_writeBytes hm]
  by_cases hp : a ≤ p ∧ p - a < as.length
  · have hcs : ¬(c ≤ p ∧ p - c < cs.length) := by omega
    simp only [hp, hcs, and_self, ↓reduceDIte]
  · simp only [hp, ↓reduceDIte]

/-- Settles O51: a program fits or not whatever the font is, and the font ends below 0x200, where a program starts. -/
theorem loadsCommute : Obligations.LoadsCommute := by
  intro font bytes s hm
  have hlen : Config.fontBase + font.toList.length ≤ 0x200 := by
    rw [Vector.length_toList]
    decide
  rcases loadProgram_cases bytes s with ⟨hlt, e⟩ | ⟨hle, e⟩ <;>
    rcases loadProgram_cases bytes (loadFont font s) with ⟨hlt', e'⟩ | ⟨hle', e'⟩ <;> rw [e, e']
  · rfl
  · omega
  · omega
  · exact congrArg (fun m => Except.ok { s with mem := m, pc := 0x200 }) (Memory.writeBytes_comm hm hlen)

/-! ### A block stored and loaded -/

/-- Settles O32: the load reads the bytes that the store left, which are the registers. -/
theorem dumpThenLoadRestoresTheRegisters : Obligations.DumpThenLoadRestoresTheRegisters := by
  intro s u x hm hx
  obtain ⟨-, hdump, -⟩ := registerDumpStoresTheBlock
  obtain ⟨-, hload, -⟩ := registerLoadReadsTheBlock
  obtain ⟨t, ht, hstored, -⟩ := hdump s x hx
  refine ⟨t, ht, fun hI hbytes => ?_⟩
  obtain ⟨w, hw, hloaded, -⟩ := hload u x (hI ▸ hx)
  refine ⟨w, hw, fun r hr => ?_⟩
  calc w.getV r = u.readByte (s.regI.toNat + r.val) := hI ▸ hloaded r hr
    _ = t.readByte (s.regI.toNat + r.val) := hbytes r hr
    _ = s.getV r := hstored hm r hr

end Sys2Proof.Machine

/-! ## What a completed instruction that can stop was and did (R218) -/

namespace Sys2Proof.Machine

section
variable {s t : State} {x : Reg}

theorem Result.next_inj {r : Result} {u : State} (h : r = .next t) (e : r = .next u) : t = u :=
  Host.Outcome.next.inj (h.symm.trans e)

theorem exec_ret_of_next (h : exec .ret s = .next t) : ∃ hpos : 0 < s.sp.val,
    t = { s with sp := ⟨s.sp.val - 1, by omega⟩ }.setPc s.stack[s.sp.val - 1] := by
  have hpos : 0 < s.sp.val := Nat.pos_of_ne_zero (not_faultsWhen_of_next h)
  exact ⟨hpos, Result.next_inj h (exec_ret_of_pos hpos)⟩

theorem exec_callNnn_of_next {nnn : Addr12} (h : exec (.callNnn nnn) s = .next t) : ∃ hlt : s.sp.val < 16,
    t = { s with stack := s.stack.set s.sp.val s.pc, sp := ⟨s.sp.val + 1, by omega⟩ }.setPc (addrWord nnn) := by
  have hlt : s.sp.val < 16 := lt_of_le_of_ne (Nat.le_of_lt_succ s.sp.isLt) (not_faultsWhen_of_next h)
  exact ⟨hlt, Result.next_inj h (exec_callNnn_of_lt nnn hlt)⟩

theorem exec_drwVxVyN_of_next {y : Reg} {n : Fin 16} (h : exec (.drwVxVyN x y n) s = .next t) :
    ∃ drawn : Framebuffer × Bool, t = (s.setFb drawn.1).setV vf (flagByte drawn.2) := by
  have hvalid : ¬(0 < n.val ∧ 0xFFF < s.dataAddr + n.val - 1) := not_faultsWhen_of_next h
  exact ⟨_, Result.next_inj h (exec_drwVxVyN_of_le x y (by omega))⟩

theorem exec_ldBVx_of_next (h : exec (.ldBVx x) s = .next t) :
    s.dataAddr + 2 ≤ 0xFFF ∧ t = s.storeBytes s.dataAddr (bcdDigits (s.getV x)) := by
  have hle : s.dataAddr + 2 ≤ 0xFFF := not_lt.1 (not_faultsWhen_of_next h)
  exact ⟨hle, Result.next_inj h (exec_ldBVx_of_le x hle)⟩

theorem exec_ldMemVx_of_next (h : exec (.ldMemVx x) s = .next t) :
    s.dataAddr + x.val ≤ 0xFFF ∧ t = s.storeBytes s.dataAddr (s.block x) := by
  have hle : s.dataAddr + x.val ≤ 0xFFF := not_lt.1 (not_faultsWhen_of_next h)
  exact ⟨hle, Result.next_inj h (exec_ldMemVx_of_le hle)⟩

theorem exec_ldVxMem_of_next (h : exec (.ldVxMem x) s = .next t) :
    t = s.setBlock (s.readBytes s.dataAddr (blockSize x)) :=
  Result.next_inj h (exec_ldVxMem_of_le (not_lt.1 (not_faultsWhen_of_next h)))

theorem exec_skpVx_of_next (h : exec (.skpVx x) s = .next t) :
    ∃ k : Key, k.val = (s.getV x).toNat ∧ t = s.skipIf (s.keyDown k) := by
  have hk : (s.getV x).toNat < 16 := Nat.lt_succ_of_le (not_lt.1 (not_faultsWhen_of_next h))
  exact ⟨⟨_, hk⟩, rfl, Result.next_inj h (exec_skpVx_of_key rfl)⟩

theorem exec_sknpVx_of_next (h : exec (.sknpVx x) s = .next t) :
    ∃ k : Key, k.val = (s.getV x).toNat ∧ t = s.skipIf (!s.keyDown k) := by
  have hk : (s.getV x).toNat < 16 := Nat.lt_succ_of_le (not_lt.1 (not_faultsWhen_of_next h))
  exact ⟨⟨_, hk⟩, rfl, Result.next_inj h (exec_sknpVx_of_key rfl)⟩

theorem exec_ldVxK_of_next (h : exec (.ldVxK x) s = .next t) :
    ((∀ k, s.keyDown k = false) ∧ t = s.rewindPc) ∨ ∃ k, s.keyDown k = true ∧ t = s.setV x (keyByte k) := by
  rcases s.lowestKey?_cases with ⟨-, hup⟩ | ⟨k, -, hk, hlt⟩
  · exact .inl ⟨hup, Result.next_inj h (exec_ldVxK_of_all_up x hup)⟩
  · exact .inr ⟨k, hk, Result.next_inj h (exec_ldVxK_of_lowest x hk hlt)⟩

/-- Whatever the policy, registers are all that a flag-writing ALU instruction changes. -/
theorem writeAlu_of_next {i : Instr} {isAlias : Bool} {y : Reg} {f : Byte → Byte → Byte} {flag : Bool}
    (h : writeAlu i isAlias x y f flag s = .next t) : ∃ r r' b b', t = (s.setV r b).setV r' b' := by
  rcases writeAlu_cases i isAlias x y f flag s with ⟨-, -, e⟩ | ⟨-, e⟩ | ⟨-, -, e⟩ | ⟨-, -, e⟩
  · exact nomatch h.symm.trans e
  all_goals exact ⟨_, _, _, _, Result.next_inj h e⟩

end

/-! ## What an instruction stores (R33, R57) -/

/-- From `s` to `t` memory changes by one store of `n` bytes from the data address up, inside `MEM`; for `n = 0` it
does not change. -/
def StoresAtDataAddr (n : Nat) (s t : State) : Prop :=
  ∃ bs : List Byte, bs.length = n ∧ t.mem = s.mem.writeBytes s.dataAddr bs ∧
    (n = 0 ∨ s.dataAddr + n ≤ Config.memSize)

theorem StoresAtDataAddr.of_mem_eq {s t : State} (h : t.mem = s.mem) : StoresAtDataAddr 0 s t :=
  ⟨[], rfl, h, .inl rfl⟩

theorem storeBytes_storesAtDataAddr (s : State) {bs : List Byte} {n : Nat} (hlen : bs.length = n)
    (h : s.dataAddr + n ≤ Config.memSize) : StoresAtDataAddr n s (s.storeBytes s.dataAddr bs) :=
  ⟨bs, hlen, rfl, .inr h⟩

theorem StoresAtDataAddr.readByte_outside {n : Nat} {s t : State} (h : StoresAtDataAddr n s t) {a : Nat}
    (ha : a < s.dataAddr ∨ s.dataAddr + n ≤ a) : t.readByte a = s.readByte a := by
  obtain ⟨bs, rfl, hmem, -⟩ := h
  rw [State.readByte, hmem, Memory.read_writeBytes_outside ha, State.readByte]

theorem writeAlu_next_mem {i : Instr} {isAlias : Bool} {x y : Reg} {f : Byte → Byte → Byte} {flag : Bool}
    {s t : State} (h : writeAlu i isAlias x y f flag s = .next t) : t.mem = s.mem := by
  obtain ⟨_, _, _, _, rfl⟩ := writeAlu_of_next h
  rfl

/-- An instruction that completes stores as many bytes as the table says. -/
theorem exec_next_storesAtDataAddr {i : Instr} {s t : State} (h : exec i s = .next t) :
    StoresAtDataAddr (storeSize i) s t := by
  cases i with
  | ldBVx x =>
    obtain ⟨hle, rfl⟩ := exec_ldBVx_of_next h
    exact storeBytes_storesAtDataAddr s (length_bcdDigits _) (Nat.succ_le_succ hle)
  | ldMemVx x =>
    obtain ⟨hle, rfl⟩ := exec_ldMemVx_of_next h
    exact storeBytes_storesAtDataAddr s (s.length_block x) (Nat.succ_le_succ hle)
  | ret =>
    obtain ⟨-, rfl⟩ := exec_ret_of_next h
    exact .of_mem_eq rfl
  | callNnn nnn =>
    obtain ⟨-, rfl⟩ := exec_callNnn_of_next h
    exact .of_mem_eq rfl
  | drwVxVyN x y n =>
    obtain ⟨-, rfl⟩ := exec_drwVxVyN_of_next h
    exact .of_mem_eq rfl
  | ldVxMem x =>
    obtain rfl := exec_ldVxMem_of_next h
    exact .of_mem_eq rfl
  | skpVx x =>
    obtain ⟨k, -, rfl⟩ := exec_skpVx_of_next h
    exact .of_mem_eq (s.skipIf_mem _)
  | sknpVx x =>
    obtain ⟨k, -, rfl⟩ := exec_sknpVx_of_next h
    exact .of_mem_eq (s.skipIf_mem _)
  | ldVxK x =>
    obtain ⟨-, rfl⟩ | ⟨k, -, rfl⟩ := exec_ldVxK_of_next h <;> exact .of_mem_eq rfl
  | seVxKk | sneVxKk | seVxVy | sneVxVy =>
    cases h
    exact .of_mem_eq (s.skipIf_mem _)
  | addVxVy | subVxVy | subnVxVy => exact .of_mem_eq (writeAlu_next_mem h)
  | shrVx x => exact .of_mem_eq (writeAlu_next_mem (y := x) (f := fun a _ => shrRes a) h)
  | shlVx x => exact .of_mem_eq (writeAlu_next_mem (y := x) (f := fun a _ => shlRes a) h)
  | _ =>
    cases h
    exact .of_mem_eq rfl

/-- Settles O12: the parts and registers by the frame of every instruction, the bytes by its store. -/
theorem instructionsWriteOnlyByTheTable : Obligations.InstructionsWriteOnlyByTheTable :=
  fun _ _ _ h => ⟨exec_next_changesOnly h, fun _ ha => (exec_next_storesAtDataAddr h).readByte_outside ha⟩

end Sys2Proof.Machine

/-! ## The program counter after a step (R24, R97) -/

namespace Sys2Proof.Machine

/-- An instruction that does not write `pc` leaves it as the advance did. -/
theorem exec_next_pc_of_not_written {i : Instr} {s t : State} (h : exec i s.advancePc = .next t)
    (hi : .programCounter ∉ writtenParts i) : t.pc = s.pc + 2 :=
  (exec_next_changesOnly h).1 .programCounter hi

theorem skipIf_advancePc_pc (s : State) (c : Bool) :
    (s.advancePc.skipIf c).pc = if c then s.pc + 4 else s.pc + 2 := by
  rw [State.skipIf_pc, s.advancePc_pc, BitVec.add_assoc]
  rfl

/-- A register value is at most one key code. -/
theorem exists_key_iff {k : Key} {n : Nat} (hk : k.val = n) (P : Key → Prop) : (∃ j : Key, j.val = n ∧ P j) ↔ P k := by
  subst hk
  simp only [Fin.val_inj, exists_eq_left]

theorem exec_next_pc {i : Instr} {s t : State} (h : exec i s.advancePc = .next t) : t.pc = pcAfter i s := by
  cases i with
  | ret =>
    obtain ⟨hpos, rfl⟩ := exec_ret_of_next h
    rw [pcAfter, dif_pos (show 0 < s.sp.val from hpos)]
    rfl
  | callNnn nnn =>
    obtain ⟨-, rfl⟩ := exec_callNnn_of_next h
    rfl
  | jpNnn | jpV0Nnn =>
    cases h
    rfl
  | seVxKk | seVxVy | sneVxKk | sneVxVy =>
    cases h
    simp only [skipIf_advancePc_pc, pcAfter, beq_iff_eq, bne_iff_ne, State.getV_advancePc]
  | skpVx x =>
    obtain ⟨k, hk, rfl⟩ := exec_skpVx_of_next h
    rw [skipIf_advancePc_pc, pcAfter]
    exact if_congr (exists_key_iff (n := (s.getV x).toNat) hk (s.keyDown · = true)).symm rfl rfl
  | sknpVx x =>
    obtain ⟨k, hk, rfl⟩ := exec_sknpVx_of_next h
    rw [skipIf_advancePc_pc, pcAfter]
    have hup : (!s.keyDown k) = true ↔ s.keyDown k = false := iff_of_eq (Bool.not_eq_true' _)
    exact if_congr (hup.trans (exists_key_iff (n := (s.getV x).toNat) hk (s.keyDown · = false)).symm) rfl rfl
  | ldVxK x =>
    obtain ⟨hup, rfl⟩ | ⟨k, hk, rfl⟩ := exec_ldVxK_of_next h
    · rw [rewindPc_advancePc]
      exact (if_neg fun ⟨k, hk⟩ => Bool.false_ne_true ((hup k).symm.trans hk)).symm
    · exact (if_pos ⟨k, hk⟩).symm
  | _ => exact exec_next_pc_of_not_written h (by simp [writtenParts])

/-- Settles O11: the step runs the instruction that the fetched word decodes to. -/
theorem pcAfterEveryInstruction : Obligations.PcAfterEveryInstruction :=
  fun _ _ _ _ hf hd h => exec_next_pc ((step_eq_exec hf hd).symm.trans h)

/-- A jump to its own address undoes the advance of its step. -/
theorem setPc_advancePc_of_eq {s : State} {w : Word} (h : s.pc = w) : s.advancePc.setPc w = s :=
  h ▸ rfl

/-- Settles O13: the step by its one write of `pc`; no timer is part of what the fetch reads. -/
theorem selfJumpIsAFixedPoint : Obligations.SelfJumpIsAFixedPoint := by
  rintro s ⟨nnn, hf, hpc⟩
  refine ⟨?step, nnn, hf, hpc⟩
  case step =>
    rw [step_eq_exec hf (decodeWord_encode (.jpNnn nnn)), exec, execJpNnn, setPc_advancePc_of_eq hpc]

end Sys2Proof.Machine

/-! ## The values of the flag (R22) -/

namespace Sys2Proof.Machine

theorem flagByte_eq_zero_or_one (b : Bool) : flagByte b = 0 ∨ flagByte b = 1 := by
  cases b
  · exact .inl rfl
  · exact .inr rfl

theorem FlagAlu.getV_vf_of_next {s t : State} {i : Instr} {x y : Reg} {f : Byte → Byte → Byte} {flag : Byte}
    (h : FlagAlu s i x y f flag) (hn : ¬VfIsOperand i) (e : exec i s = .next t) :
    t.getV vf = 0 ∨ t.getV vf = 1 := by
  obtain ⟨u, hu, -, hflag, -⟩ := h.completes hn
  obtain ⟨-, b, -, hb, -⟩ := h.exec_eq
  rw [Result.next_inj e hu, hflag, ← hb]
  exact flagByte_eq_zero_or_one b

/-- Settles O26: the flag that each of the six writes is a Bool's byte. -/
theorem flagWritersLeaveZeroOrOne : Obligations.FlagWritersLeaveZeroOrOne := by
  rintro s t i x y h (⟨rfl | rfl | rfl, hx, hy⟩ | ⟨rfl | rfl, hx⟩ | ⟨n, rfl⟩)
  · exact (flagAlu_addVxVy s x y).getV_vf_of_next (not_or.2 ⟨hx, hy⟩) h
  · exact (flagAlu_subVxVy s x y).getV_vf_of_next (not_or.2 ⟨hx, hy⟩) h
  · exact (flagAlu_subnVxVy s x y).getV_vf_of_next (not_or.2 ⟨hx, hy⟩) h
  · exact (flagAlu_shrVx s x y).getV_vf_of_next hx h
  · exact (flagAlu_shlVx s x y).getV_vf_of_next hx h
  · obtain ⟨drawn, rfl⟩ := exec_drwVxVyN_of_next h
    rw [State.getV_setV_same]
    exact flagByte_eq_zero_or_one drawn.2

end Sys2Proof.Machine

/-! ## The invariant of reachable states (R35) -/

namespace Sys2Proof.Machine

/-! ### Memory -/

theorem memoryOk_storeBytes {s : State} {a : Nat} {bs : List Byte} (hm : MemoryOk s)
    (h : a + bs.length ≤ Config.memSize) : MemoryOk (s.storeBytes a bs) :=
  ⟨Memory.wf_writeBytes _ _ _ hm.1, Memory.bounded_writeBytes _ _ _ h hm.2⟩

theorem StoresAtDataAddr.memoryOk {n : Nat} {s t : State} (h : StoresAtDataAddr n s t) (hm : MemoryOk s) :
    MemoryOk t := by
  obtain ⟨bs, rfl, hmem, hlen | hle⟩ := h
  · rw [List.eq_nil_of_length_eq_zero hlen, Memory.writeBytes] at hmem
    rwa [MemoryOk, hmem]
  · have hstored := memoryOk_storeBytes hm hle
    rwa [MemoryOk, hmem]

/-! ### The stack and `pc` -/

theorem StackOk.of_eq {s t : State} (hs : StackOk s) (hsp : t.sp = s.sp) (hstack : t.stack = s.stack) : StackOk t := by
  rwa [StackOk, hsp, hstack]

/-- A return address comes from the `pc` of a completed fetch. -/
theorem exec_next_stackOk {i : Instr} {s t : State} (hs : StackOk s)
    (hpc : 0x002 ≤ s.pc.toNat ∧ s.pc.toNat ≤ 0x1000) (h : exec i s = .next t) : StackOk t := by
  by_cases hi : .callStack ∈ writtenParts i
  case neg =>
    obtain ⟨hsp, hstack⟩ := (exec_next_changesOnly h).1 .callStack hi
    exact hs.of_eq hsp hstack
  case pos =>
    cases i with
    | ret =>
      obtain ⟨-, rfl⟩ := exec_ret_of_next h
      exact fun j hj => hs j (Nat.lt_of_lt_of_le hj (Nat.sub_le _ _))
    | callNnn nnn =>
      obtain ⟨hlt, rfl⟩ := exec_callNnn_of_next h
      intro j hj
      by_cases heq : s.sp.val = j.val
      · simpa [heq] using hpc
      · have hold := hs j (lt_of_le_of_ne (Nat.le_of_lt_succ hj) (Ne.symm heq))
        simpa [heq] using hold
    | _ => simp [writtenParts] at hi

theorem toNat_pcAfter_le (i : Instr) {s : State} (hs : StackOk s) (hpc : s.pc.toNat ≤ 0xFFE) :
    (pcAfter i s).toNat ≤ 0x10FE := by
  have hadvance : (s.pc + 2).toNat ≤ 0x10FE := by bv_omega
  have hskip : (s.pc + 4).toNat ≤ 0x10FE := by bv_omega
  cases i with
  | jpNnn nnn | callNnn nnn =>
    have := toNat_addrWord nnn
    have := nnn.isLt
    show (addrWord nnn).toNat ≤ 0x10FE
    omega
  | jpV0Nnn nnn =>
    have := toNat_addrWord_add_byteWord nnn (s.getV 0)
    have := nnn.isLt
    have := (s.getV 0).isLt
    show (addrWord nnn + byteWord (s.getV 0)).toNat ≤ 0x10FE
    omega
  | ret =>
    rw [pcAfter]
    split
    · next hpos =>
      have hlt : s.sp.val - 1 < s.sp.val := by omega
      have := (hs ⟨s.sp.val - 1, by omega⟩ hlt).2
      exact this.trans (by decide)
    · omega
  | seVxKk | sneVxKk | seVxVy | sneVxVy | skpVx | sknpVx =>
    rw [pcAfter]
    split
    · exact hskip
    · exact hadvance
  | ldVxK =>
    rw [pcAfter]
    split
    · exact hadvance
    · omega
  | _ => exact hadvance

/-- Settles O55: each clause of the invariant by what the decoded instruction stores, pushes and leaves in `pc`. -/
theorem everyStepKeepsTheInvariant : Obligations.EveryStepKeepsTheInvariant := by
  rintro s t ⟨hm, -, hs⟩ h
  obtain ⟨i, hpc, -, he⟩ := step_next h
  refine ⟨?mem, ?pc, ?stack⟩
  case mem => exact (exec_next_storesAtDataAddr he).memoryOk hm
  case pc =>
    rw [PcOk, exec_next_pc he]
    exact toNat_pcAfter_le i hs hpc
  case stack =>
    refine exec_next_stackOk (s := s.advancePc) hs ?_ he
    rw [State.advancePc_pc]
    bv_omega

/-! ### Events, runs and the boot -/

theorem memoryOk_loadFont {s : State} (font : Vector Byte 80) (hm : MemoryOk s) : MemoryOk (loadFont font s) :=
  memoryOk_storeBytes hm (by rw [Vector.length_toList]; decide)

/-- A program that is loaded sets `pc`, whatever it was. -/
theorem inv_of_loadProgram {bytes : List Byte} {s t : State} (hm : MemoryOk s) (hs : StackOk s)
    (h : loadProgram bytes s = .ok t) : Inv t := by
  rcases loadProgram_cases bytes s with ⟨-, e⟩ | ⟨hle, e⟩ <;> cases e.symm.trans h
  have hentry : (0x200 : Word).toNat ≤ 0x10FE := by decide
  exact ⟨memoryOk_storeBytes hm (by rwa [Nat.add_comm]), hentry, hs⟩

theorem inv_stateAfter_step {s : State} (h : Inv s) : Inv (stateAfter s (step s)) := by
  cases e : step s with
  | next t => exact everyStepKeepsTheInvariant s t h e
  | fault | refused => exact h

theorem inv_afterLoad_loadFromSource (source : Option (List Byte)) {s : State} (h : Inv s) :
    Inv (afterLoad s (loadFromSource source s)).1 := by
  cases e : loadFromSource source s with
  | error => exact h
  | ok t =>
    obtain ⟨hm, -, hs⟩ := h
    cases source with
    | none => cases e
    | some bytes => exact inv_of_loadProgram hm hs e

/-- Events that touch neither memory, nor `pc`, nor the stack keep the invariant by definition. -/
theorem inv_applyEvent (e : Event) (s : State) (he : e.isNotReset = true) (h : Inv s) : Inv (applyEvent e s).1 := by
  cases e with
  | reset init => simp [Event.isNotReset] at he
  | step => exact inv_stateAfter_step h
  | loadFont font =>
    obtain ⟨hm, hpc, hs⟩ := h
    exact ⟨memoryOk_loadFont font hm, hpc, hs⟩
  | loadProgram source => exact inv_afterLoad_loadFromSource source h
  | tick | keyWrite | fbRead => exact h

/-- Settles O56: by induction over the schedule. -/
theorem everyScheduleKeepsTheInvariant : Obligations.EveryScheduleKeepsTheInvariant :=
  runEvents_keeps Inv (·.isNotReset = true) inv_applyEvent

/-- Settles O54: the reset leaves an empty stack and memory in order, and the loads store inside it. -/
theorem bootEstablishesTheInvariant : Obligations.BootEstablishesTheInvariant := by
  intro init font bytes s t h
  have hm : MemoryOk (resetEvent init s) := ⟨resetEvent_wf init s, resetEvent_bounded init s⟩
  have hs : StackOk (loadFont font (resetEvent init s)) := fun j hj => absurd hj (Nat.not_lt_zero j)
  exact inv_of_loadProgram (memoryOk_loadFont font hm) hs h

/-- Settles O53: the clauses evaluated on the one state; nothing is in use on its stack. -/
theorem resetStateMeetsTheInvariant : Obligations.ResetStateMeetsTheInvariant := by
  unfold Obligations.ResetStateMeetsTheInvariant
  decide

end Sys2Proof.Machine

/-! ## The state after the boot (R34, R236) -/

namespace Sys2Proof.Machine

theorem loadProgram_of_le {bytes : List Byte} (s : State) (h : bytes.length ≤ 3584) :
    loadProgram bytes s = .ok ((s.storeBytes 0x200 bytes).setPc 0x200) := by
  rcases loadProgram_cases bytes s with ⟨hlt, -⟩ | ⟨-, e⟩
  · omega
  · exact e

theorem readByte_loadFont (font : Vector Byte 80) (s : State) :
    (s.mem.wf = true → ∀ (k : Nat) (h : k < 80), (loadFont font s).readByte (0x050 + k) = font[k]) ∧
    ∀ a, a < 0x050 ∨ 0x09F < a → (loadFont font s).readByte a = s.readByte a := by
  obtain ⟨_, ⟨⟩, hfont, hkept, -⟩ := loadFontWritesTheFontRange font s
  exact ⟨hfont, hkept⟩

/-- Settles O52: a byte of memory by the last of the three events that writes it; the rest by the event that sets it. -/
theorem bootStateIsAsTheTableSays : Obligations.BootStateIsAsTheTableSays := by
  intro init font bytes s hlen
  have hwf := resetEvent_wf init s
  have hwf' : (loadFont font (resetEvent init s)).mem.wf = true := Memory.wf_writeBytes _ _ _ hwf
  obtain ⟨hfont, hkept⟩ := readByte_loadFont font (resetEvent init s)
  have houtside {a : Nat} (ha : a < 0x200 ∨ 0x200 + bytes.length ≤ a) :=
    (loadFont font (resetEvent init s)).readByte_storeBytes_outside (bs := bytes) ha
  refine ⟨_, loadProgram_of_le _ hlen, rfl, rfl, Framebuffer.at_clear, fun k hk => ?font,
    State.readByte_storeBytes_add hwf' 0x200 bytes, rfl, rfl, rfl, rfl, rfl, fun a ha ha' hout => ?init⟩
  case font =>
    have hread := houtside (a := 0x050 + k) (by omega)
    rwa [hfont hwf k hk] at hread
  case init =>
    have hread := houtside (a := a) (by omega)
    rwa [hkept a (by omega), readByte_resetEvent init s a ha ha'] at hread

end Sys2Proof.Machine

/-! ## Drawing twice (R174) -/

namespace Sys2Proof.Machine

/-- Two draws over the same pixels: each covered pixel is inverted twice, and is lit at the second draw if it was dark
at the first. -/
theorem Draws.twice {P : Fin 64 → Fin 32 → Prop} {d e f : Framebuffer × Bool} (h : Draws P d e)
    (h' : Draws P (e.1, false) f) :
    f.1 = d.1 ∧ (f.2 = true ↔ ∃ px py, P px py ∧ d.1.pixel px py = false) := by
  refine ⟨Framebuffer.ext_pixel _ _ fun px py => ?pixels, ?collision⟩
  case pixels =>
    by_cases hp : P px py
    · rw [h'.inverted px py hp, h.inverted px py hp, Bool.not_not]
    · rw [h'.kept px py hp, h.kept px py hp]
  case collision =>
    have hlit (px : Fin 64) (py : Fin 32) : P px py ∧ e.1.pixel px py = true ↔ P px py ∧ d.1.pixel px py = false :=
      and_congr_right fun hp => by rw [h.inverted px py hp, Bool.not_eq_true']
    simp only [h'.collided, Bool.false_eq_true, false_or, hlit]

/-- Settles O38: both draws are over the pixels that the sprite covers. -/
theorem drawingTwiceRestoresTheFramebuffer : Obligations.DrawingTwiceRestoresTheFramebuffer := by
  intro rows ox oy fb hlen
  have hdraws (fb : Framebuffer) := drawSprite_draws rows ox oy fb (by omega)
  exact (hdraws fb).twice (hdraws _)

end Sys2Proof.Machine

/-! ## The delay timer (R26, R193) -/

namespace Sys2Proof.Machine

theorem delayTimer_mem_writtenParts {i : Instr} (h : .delayTimer ∈ writtenParts i) : ∃ x, i = .ldDtVx x := by
  cases i with
  | ldDtVx x => exact ⟨x, rfl⟩
  | _ => simp [writtenParts] at h

/-- Settles O47: a tick counts down, and of the other events only a step can write DT. -/
theorem delayTimerNeverRisesUnwritten : Obligations.DelayTimerNeverRisesUnwritten := by
  intro e s hreset hstep
  cases e with
  | reset init => simp [Event.isNotReset] at hreset
  | tick =>
    rw [applyEvent_tick, tick_dt, toNat_countDown]
    exact Nat.sub_le _ _
  | step =>
    have hdt : (stateAfter s (step s)).dt = s.dt := by
      refine step_samePart (p := .delayTimer) nofun fun op i hf hd hmem => ?_
      obtain ⟨x, rfl⟩ := delayTimer_mem_writtenParts hmem
      exact hstep rfl op x hf hd
    exact (congrArg BitVec.toNat hdt).le
  | loadProgram source =>
    have hdt := (afterLoad_loadFromSource_changesOnly source s).1 .delayTimer (by decide)
    exact (congrArg BitVec.toNat hdt).le
  | keyWrite | fbRead | loadFont => exact le_rfl

end Sys2Proof.Machine

/-! ## Hidden state: ST, KEYS and the stack entries (R26, R29, R32, R33) -/

namespace Sys2Proof.Machine

/-! ### Instructions do not read what they do not need -/

/-- The next state of a result put through a function; a fault is left as it is. -/
def mapNext (g : State → State) : Result → Result
  | .next t => .next (g t)
  | .fault f => .fault f
  | .refused r => .refused r

/-- ST, KEYS and the stack entries put through functions; `SP` and every other field are left as they are. -/
def State.mapHidden (st : Byte → Byte) (keys : Vector Bool 16 → Vector Bool 16)
    (stack : Vector Word 16 → Vector Word 16) (s : State) : State :=
  { s with st := st s.st, keys := keys s.keys, stack := stack s.stack }

/-- The three instructions that read KEYS (R33). -/
def ReadsLatch : Instr → Prop
  | .skpVx _ | .sknpVx _ | .ldVxK _ => True
  | _ => False

section
variable (st : Byte → Byte) (keys : Vector Bool 16 → Vector Bool 16) (stack : Vector Word 16 → Vector Word 16)
  (s : State)

@[simp] theorem State.getV_mapHidden (r : Reg) : (s.mapHidden st keys stack).getV r = s.getV r := rfl
@[simp] theorem State.dataAddr_mapHidden : (s.mapHidden st keys stack).dataAddr = s.dataAddr := rfl
@[simp] theorem State.aliasPolicy_mapHidden : (s.mapHidden st keys stack).aliasPolicy = s.aliasPolicy := rfl
@[simp] theorem State.lowestKey?_mapHidden : (s.mapHidden st id stack).lowestKey? = s.lowestKey? := rfl

theorem skipIf_mapHidden (c : Bool) :
    (s.mapHidden st keys stack).skipIf c = (s.skipIf c).mapHidden st keys stack := by
  cases c <;> rfl

/-- The branches of `writeAlu` are by whether VF is an operand and by the policy, which stay as they are. -/
theorem writeAlu_mapHidden (i : Instr) (isAlias : Bool) (x y : Reg) (f : Byte → Byte → Byte) (flag : Bool) :
    writeAlu i isAlias x y f flag (s.mapHidden st keys stack) =
      mapNext (·.mapHidden st keys stack) (writeAlu i isAlias x y f flag s) := by
  cases isAlias with
  | false => rfl
  | true => cases h : s.aliasPolicy <;> simp only [writeAlu, State.aliasPolicy_mapHidden, h, ↓reduceIte] <;> rfl

/-- An instruction does the same whatever stands in the hidden parts: of them LD ST, Vx sets ST afresh, the three
key instructions read KEYS, RET and CALL use the stack entries, and no other instruction touches any. -/
theorem exec_mapHidden (i : Instr) (hst : .soundTimer ∈ writtenParts i → st = id) (hkeys : ReadsLatch i → keys = id)
    (hstack : .callStack ∈ writtenParts i → stack = id) :
    exec i (s.mapHidden st keys stack) = mapNext (·.mapHidden st keys stack) (exec i s) := by
  cases i with
  | seVxKk | sneVxKk | seVxVy | sneVxVy => exact congrArg Host.Outcome.next (skipIf_mapHidden st keys stack s _)
  | addVxVy | subVxVy | subnVxVy => exact writeAlu_mapHidden st keys stack s ..
  | shrVx x => exact writeAlu_mapHidden st keys stack s _ _ x x (fun a _ => shrRes a) _
  | shlVx x => exact writeAlu_mapHidden st keys stack s _ _ x x (fun a _ => shlRes a) _
  | drwVxVyN x y n =>
    rcases firstInvalid?_cases s.dataAddr n.val with ⟨e, -⟩ | ⟨e, -⟩ <;>
      simp only [exec, execDrwVxVyN, State.dataAddr_mapHidden, e] <;> rfl
  | ldBVx x =>
    rcases firstInvalid?_cases s.dataAddr 3 with ⟨e, -⟩ | ⟨e, -⟩ <;>
      simp only [exec, execLdBVx, State.dataAddr_mapHidden, e] <;> rfl
  | ldMemVx x =>
    rcases firstInvalid?_cases s.dataAddr (blockSize x) with ⟨e, -⟩ | ⟨e, -⟩ <;>
      simp only [exec, execLdMemVx, State.dataAddr_mapHidden, e] <;> rfl
  | ldVxMem x =>
    rcases firstInvalid?_cases s.dataAddr (blockSize x) with ⟨e, -⟩ | ⟨e, -⟩ <;>
      simp only [exec, execLdVxMem, State.dataAddr_mapHidden, e] <;> rfl
  | ret =>
    obtain rfl := hstack (by decide)
    rcases s.pop?_cases with ⟨h, -⟩ | ⟨h, -⟩
    · rw [exec_ret_of_eq_zero h]
      exact exec_ret_of_eq_zero (s := s.mapHidden st keys id) h
    · rw [exec_ret_of_pos h]
      exact exec_ret_of_pos (s := s.mapHidden st keys id) h
  | callNnn nnn =>
    obtain rfl := hstack (by simp [writtenParts])
    rcases s.push?_cases s.pc with ⟨h, -⟩ | ⟨h, -⟩
    · rw [exec_callNnn_of_eq_16 nnn h]
      exact exec_callNnn_of_eq_16 (s := s.mapHidden st keys id) nnn h
    · rw [exec_callNnn_of_lt nnn h]
      exact exec_callNnn_of_lt (s := s.mapHidden st keys id) nnn h
  | skpVx x =>
    obtain rfl := hkeys trivial
    rcases keyIndex?_cases (s.getV x) with ⟨-, e⟩ | ⟨_, e⟩ <;>
      simp only [exec, execSkpVx, State.getV_mapHidden, e]
    · rfl
    · exact congrArg Host.Outcome.next (skipIf_mapHidden st id stack s _)
  | sknpVx x =>
    obtain rfl := hkeys trivial
    rcases keyIndex?_cases (s.getV x) with ⟨-, e⟩ | ⟨_, e⟩ <;>
      simp only [exec, execSknpVx, State.getV_mapHidden, e]
    · rfl
    · exact congrArg Host.Outcome.next (skipIf_mapHidden st id stack s _)
  | ldVxK x =>
    obtain rfl := hkeys trivial
    rcases s.lowestKey?_cases with ⟨e, -⟩ | ⟨_, e, -⟩ <;>
      simp only [exec, execLdVxK, State.lowestKey?_mapHidden, e] <;> rfl
  | ldStVx x =>
    obtain rfl := hst (by simp [writtenParts])
    rfl
  | _ => rfl

end

/-! ### ST and KEYS -/

theorem exec_setSt (i : Instr) (s : State) (b : Byte) :
    ∃ c, exec i (s.setSt b) = mapNext (·.setSt c) (exec i s) := by
  by_cases hi : .soundTimer ∈ writtenParts i
  · obtain ⟨x, rfl⟩ := soundTimer_mem_writtenParts hi
    exact ⟨s.getV x, rfl⟩
  · exact ⟨b, exec_mapHidden (fun _ => b) id id s i (fun h => absurd h hi) (fun _ => rfl) fun _ => rfl⟩

/-- Two states with one `pc` and one memory fetch alike, so their steps fault alike there or run one instruction. -/
theorem step_rel {R : Result → Result → Prop} {s t : State} (hpc : t.pc = s.pc) (hmem : t.mem = s.mem)
    (hfault : ∀ f, R (.fault f) (.fault f)) (hexec : ∀ i, R (exec i s.advancePc) (exec i t.advancePc)) :
    R (step s) (step t) := by
  have hf : fetch t = fetch s := by simp only [fetch, State.readByte, hpc, hmem]
  cases e : fetch s with
  | error f =>
    rw [step_eq_fault_of_fetch e, step_eq_fault_of_fetch (hf.trans e)]
    exact hfault f
  | ok op =>
    cases hd : decodeWord op with
    | none =>
      rw [step_eq_illegalOpcode e hd, step_eq_illegalOpcode (hf.trans e) hd, hpc]
      exact hfault _
    | some i =>
      rw [step_eq_exec e hd, step_eq_exec (hf.trans e) hd]
      exact hexec i

theorem step_setSt (s : State) (b : Byte) : ∃ c, step (s.setSt b) = mapNext (·.setSt c) (step s) :=
  step_rel (R := fun r r' => ∃ c, r' = mapNext (·.setSt c) r) rfl rfl (fun _ => ⟨b, rfl⟩)
    fun i => exec_setSt i s.advancePc b

/-- Settles O45: with another ST the step has the same result, but for ST in its next state. -/
theorem noInstructionReadsTheSoundTimer : Obligations.NoInstructionReadsTheSoundTimer := by
  intro s b
  obtain ⟨c, hc⟩ := step_setSt s b
  refine ⟨fun t ht => ⟨c, ?_⟩, fun f hf => ?_⟩
  · rw [hc, ht, mapNext]
  · rw [hc, hf, mapNext]

theorem readsLatch_cases {i : Instr} (h : ReadsLatch i) :
    (∃ x, i = .skpVx x) ∨ (∃ x, i = .sknpVx x) ∨ ∃ x, i = .ldVxK x := by
  cases i with
  | skpVx x => exact .inl ⟨x, rfl⟩
  | sknpVx x => exact .inr (.inl ⟨x, rfl⟩)
  | ldVxK x => exact .inr (.inr ⟨x, rfl⟩)
  | _ => exact False.elim h

/-- Settles O46: with another latch any other instruction has the same result, but for the latch in its next state. -/
theorem onlyKeyInstructionsReadTheLatch : Obligations.OnlyKeyInstructionsReadTheLatch := by
  intro i s keys hskp hsknp hwait
  have hreads : ¬ReadsLatch i := by
    intro h
    obtain ⟨x, rfl⟩ | ⟨x, rfl⟩ | ⟨x, rfl⟩ := readsLatch_cases h
    · exact hskp x rfl
    · exact hsknp x rfl
    · exact hwait x rfl
  have e : exec i { s with keys := keys } = mapNext (fun t => { t with keys := keys }) (exec i s) :=
    exec_mapHidden id (fun _ => keys) id s i (fun _ => rfl) (fun h => absurd h hreads) fun _ => rfl
  refine ⟨fun t ht => ?_, fun f hf => ?_⟩
  · rw [e, ht, mapNext]
  · rw [e, hf, mapNext]

/-! ### The stack entries that are not in use -/

theorem sameButUnusedStack_iff {s t : State} : SameButUnusedStack s t ↔
    ∃ stack : Vector Word 16, (∀ j : Fin 16, j.val < s.sp.val → stack[j.val] = s.stack[j.val]) ∧
      t = { s with stack := stack } := by
  constructor
  · rintro ⟨e, h⟩
    exact ⟨t.stack, h, e⟩
  · rintro ⟨stack, h, rfl⟩
    exact ⟨rfl, h⟩

/-- Two results that cannot be told apart but by stack entries that are not in use. -/
inductive SameResult : Result → Result → Prop
  | next {s t : State} (h : SameButUnusedStack s t) : SameResult (.next s) (.next t)
  | fault (f : Fault) : SameResult (.fault f) (.fault f)
  | refused (r : Refusal) : SameResult (.refused r) (.refused r)

/-- RET reads an entry in use, CALL sets the first that is not. -/
theorem exec_sameResult (i : Instr) {s t : State} (h : SameButUnusedStack s t) : SameResult (exec i s) (exec i t) := by
  obtain ⟨stack, hstack, rfl⟩ := sameButUnusedStack_iff.1 h
  by_cases hi : .callStack ∈ writtenParts i
  case neg =>
    have e : exec i { s with stack := stack } = mapNext (fun t => { t with stack := stack }) (exec i s) :=
      exec_mapHidden id id (fun _ => stack) s i (fun _ => rfl) (fun _ => rfl) fun h => absurd h hi
    rw [e]
    cases hr : exec i s with
    | next u =>
      obtain ⟨hsp, hkept⟩ := (exec_next_changesOnly hr).1 .callStack hi
      exact .next ⟨rfl, by rwa [hsp, hkept]⟩
    | fault f => exact .fault f
    | refused r => exact .refused r
  case pos =>
    cases i with
    | ret =>
      by_cases h0 : s.sp.val = 0
      · rw [exec_ret_of_eq_zero h0, exec_ret_of_eq_zero (s := { s with stack := stack }) h0]
        exact .fault _
      · have hpos : 0 < s.sp.val := Nat.pos_of_ne_zero h0
        have htop : stack[s.sp.val - 1] = s.stack[s.sp.val - 1] :=
          hstack ⟨s.sp.val - 1, by omega⟩ (Nat.sub_lt hpos Nat.one_pos)
        rw [exec_ret_of_pos hpos, exec_ret_of_pos (s := { s with stack := stack }) hpos, htop]
        exact .next ⟨rfl, fun j hj => hstack j (Nat.lt_of_lt_of_le hj (Nat.sub_le _ _))⟩
    | callNnn nnn =>
      by_cases h16 : s.sp.val = 16
      · rw [exec_callNnn_of_eq_16 nnn h16, exec_callNnn_of_eq_16 (s := { s with stack := stack }) nnn h16]
        exact .fault _
      · have hlt : s.sp.val < 16 := by omega
        rw [exec_callNnn_of_lt nnn hlt, exec_callNnn_of_lt (s := { s with stack := stack }) nnn hlt]
        refine .next ⟨rfl, fun j hj => ?_⟩
        by_cases heq : s.sp.val = j.val
        · simp [heq]
        · have hold := hstack j (lt_of_le_of_ne (Nat.le_of_lt_succ hj) (Ne.symm heq))
          simpa [heq] using hold
    | _ => simp [writtenParts] at hi

theorem SameResult.event {s t : State} {r r' : Result} (hst : SameButUnusedStack s t) (h : SameResult r r') :
    SameButUnusedStack (stateAfter s r) (stateAfter t r') ∧ reportOf r' = reportOf r := by
  cases h with
  | next h => exact ⟨h, rfl⟩
  | fault | refused => exact ⟨hst, rfl⟩

theorem step_sameResult {s t : State} (h : SameButUnusedStack s t) : SameResult (step s) (step t) := by
  obtain ⟨stack, hstack, rfl⟩ := sameButUnusedStack_iff.1 h
  exact step_rel rfl rfl .fault fun i => exec_sameResult i (s := s.advancePc) ⟨rfl, hstack⟩

theorem afterLoad_loadFromSource_sameButUnusedStack (source : Option (List Byte)) {s t : State}
    (h : SameButUnusedStack s t) :
    SameButUnusedStack (afterLoad s (loadFromSource source s)).1 (afterLoad t (loadFromSource source t)).1 ∧
      (afterLoad t (loadFromSource source t)).2 = (afterLoad s (loadFromSource source s)).2 := by
  cases source with
  | none => exact ⟨h, rfl⟩
  | some bytes =>
    obtain ⟨stack, hstack, rfl⟩ := sameButUnusedStack_iff.1 h
    by_cases hlen : bytes.length + Config.progBase > Config.memSize
    · simp only [loadFromSource, loadProgram, if_pos hlen]
      exact ⟨h, rfl⟩
    · simp only [loadFromSource, loadProgram, if_neg hlen]
      exact ⟨⟨rfl, hstack⟩, rfl⟩

theorem applyEvent_sameButUnusedStack (e : Event) {s t : State} (h : SameButUnusedStack s t) :
    SameButUnusedStack (applyEvent e s).1 (applyEvent e t).1 ∧ (applyEvent e t).2 = (applyEvent e s).2 := by
  obtain ⟨stack, hstack, rfl⟩ := sameButUnusedStack_iff.1 h
  cases e with
  | step => exact (step_sameResult h).event h
  | loadProgram source => exact afterLoad_loadFromSource_sameButUnusedStack source h
  | reset init => exact ⟨⟨rfl, fun _ _ => rfl⟩, rfl⟩
  | tick | keyWrite | fbRead | loadFont => exact ⟨⟨rfl, hstack⟩, rfl⟩

/-- Settles O57: by induction over the schedule, each event of which keeps the relation and puts out the same. -/
theorem unusedStackEntriesAreUnobservable : Obligations.UnusedStackEntriesAreUnobservable := by
  intro es
  induction es with
  | nil => exact fun s t h => ⟨rfl, h⟩
  | cons e es ih =>
    intro s t h
    obtain ⟨hnext, hout⟩ := applyEvent_sameButUnusedStack e h
    obtain ⟨houts, hlast⟩ := ih _ _ hnext
    exact ⟨congrArg₂ List.cons hout houts, hlast⟩

end Sys2Proof.Machine
